-- ==== Sys2Proof/Word.lean ====
section
/-! DEFINITION. The widths of the unit's values (R10, R11, R60 of spec/): every value is an unsigned number of a stated width. -/

namespace Sys2Proof

/-- A byte of the packet buffer, a strength, a variant tag, a length (R11, R23). -/
abbrev Byte := BitVec 8

/-- A 16-bit value: a tag identifier, a checksum, an index operand (R10, R60). -/
abbrev Half := BitVec 16

/-- The 32-bit operand and result field `t` (R60, R180). -/
abbrev Word32 := BitVec 32

/-- A command word or a response word, 64 bits (R60, R180). -/
abbrev Word := BitVec 64

/-- A block: the 16 bytes (`PKT_SIZE`, fixed by R7) of a packet, byte 0 first (R11). -/
abbrev Block := Vector Byte 16

end Sys2Proof
end

