-- ==== Sys2Proof/Config.lean ====
section
/-! DEFINITION. The configuration record (R7, constraints R9): what is fixed for the machine, and the OPEN parameters. -/

namespace Sys2Proof

namespace Config

/-- `PKT_SIZE`, bytes of a packet (R7). -/
abbrev pktSize : Nat := 16

/-- `GROUP_SIZE`, bytes of a normalizer group (R7). -/
abbrev groupSize : Nat := 4

/-- `GROUPS`, normalizer groups of a packet (R7). -/
abbrev groups : Nat := 4

/-- `CAPACITY`, slots of the cache (R7). Log entry 1. -/
abbrev capacity : Nat := 8

/-- `CUTOFF`, in ticks (R7; the literal is 8096). Log entry 1. -/
abbrev cutoff : Nat := 8096

/-- `TICK_W`, bits of a tick (R7, decision D10). Log entry 1. -/
abbrev tickW : Nat := 32

/-- `OFF_CRC`, offset of the trailing checksum (R7). -/
abbrev offCrc : Nat := 14

/-- `CRC_INIT` (R7). -/
def crcInit : Half := 0xFFFF#16

/-- `PROX_STRENGTH`, the sentinel strength of proximity reports (R7). -/
def proxStrength : Byte := 3#8

end Config

/-- A tick of this machine: `TICK_W` bits (R23). -/
abbrev Tick := BitVec Config.tickW

/-- The OPEN parameters of R7 that place the fields of a plaintext block and number the protocol variants, with the constraints
of R9 on them: every offset leaves its field inside bytes 0..13, the fields are pairwise disjoint, the three codes pairwise
different. The default values are the defaults of R7; nothing may rest on them (R123). Log entry 2. -/
structure Layout where
  /-- `OFF_PROTO`: where the 8-bit variant tag lies. -/
  offProto : Fin 14 := 0
  /-- `OFF_OID`: where the 16-bit tag identifier begins. -/
  offOid : Fin 13 := 1
  /-- `OFF_STRENGTH`: where the 8-bit raw strength lies. -/
  offStrength : Fin 14 := 4
  /-- `PROTO_TAG_TRACKER`. -/
  protoTagTracker : Byte := 24#8
  /-- `PROTO_PROX_REPORT`. -/
  protoProxReport : Byte := 69#8
  /-- `PROTO_PROX_REPORT_EXT`. -/
  protoProxReportExt : Byte := 70#8
  /-- R9: the byte ranges of the three fields are pairwise disjoint. -/
  fieldsDisjoint : offProto.val ≠ offOid.val ∧ offProto.val ≠ offOid.val + 1 ∧ offStrength.val ≠ offOid.val ∧
    offStrength.val ≠ offOid.val + 1 ∧ offProto.val ≠ offStrength.val := by decide
  /-- R9: the three protocol codes are pairwise different. -/
  codesDistinct : protoTagTracker ≠ protoProxReport ∧ protoTagTracker ≠ protoProxReportExt ∧
    protoProxReport ≠ protoProxReportExt := by decide
  deriving DecidableEq, Repr, Inhabited

/-- The layout of this machine's packets: OPEN (R7, R123; 93_implementation_defined.md U4), so an opaque constant. Every
claim about the machine holds for every admissible layout. Log entry 2. -/
opaque Config.layout : Layout

/-- The payload cipher of this machine: OPEN (R110, U1), a total bijection of blocks with its inverse and nothing else
(R111 to R113). `Config.cipher B` is `DEC(B)`, `Config.cipher.symm B` is `ENC(B)`. Log entry 3. -/
opaque Config.cipher : Equiv.Perm Block

/-- The configuration record of R7, the argument `Config` of R6: every parameter that `93_implementation_defined.md` treats as one
(U1, U4, U5, U6), with the constraints of R9. The entries of R7 that the source fixes are the constants above; `CMD_W` and `RESP_W`
are the type `Word`. Log entry 1. -/
structure Configuration where
  /-- `CAPACITY`, slots of the cache. -/
  capacity : Nat
  /-- `CUTOFF`, in ticks. -/
  cutoff : Nat
  /-- `TICK_W`, bits of a tick. -/
  tickW : Nat
  /-- The field offsets and the variant codes. -/
  layout : Layout
  /-- `DEC`, with its inverse. -/
  cipher : Equiv.Perm Block
  /-- R9: there is a slot, and a 16-bit operand names every slot. -/
  capacityInRange : 1 ≤ capacity ∧ capacity ≤ 65536
  /-- R9: the cutoff is a tick. -/
  cutoffIsTick : cutoff < 2 ^ tickW
  /-- R9: a tick fits the field `t`, and the cutoff 8096 wants at least 14 bits. -/
  tickFits : tickW ≤ 32 ∧ (cutoff = 8096 → 14 ≤ tickW)

/-- The record of this hardware: the column "value" of R7, the OPEN entries opaque. Log entries 1 to 3. -/
abbrev Config.record : Configuration where
  capacity := Config.capacity
  cutoff := Config.cutoff
  tickW := Config.tickW
  layout := Config.layout
  cipher := Config.cipher
  capacityInRange := by decide
  cutoffIsTick := by decide
  tickFits := by decide

end Sys2Proof
end

