-- ==== Sys2Proof/Machine/Operands.lean ====
section
/-! DEFINITION. Operand forms: the four-field shape of command and response words (R60, R180), the range conditions on
operands (R61, R63), and the 16-bit byte-order helpers (R10, R11). -/

namespace Sys2Proof

/-- `cmd.op`, bits 63:56 (R60). -/
def opField (w : Word) : Byte := w.extractLsb' 56 8

/-- `cmd.a`, bits 55:48 (R60). -/
def aField (w : Word) : Byte := w.extractLsb' 48 8

/-- `cmd.h`, bits 47:32 (R60). -/
def hField (w : Word) : Half := w.extractLsb' 32 16

/-- `cmd.t`, bits 31:0 (R60). -/
def tField (w : Word) : Word32 := w.extractLsb' 0 32

/-- `op ++ a ++ h ++ t`, the shape of a command word (R60) and of a response word (R180). -/
def packWord (op a : Byte) (h : Half) (t : Word32) : Word := op ++ a ++ h ++ t

/-- The index of `PUTB` and `GETB` must be `< 16` (R61, R48). -/
def indexInBuffer (h : Half) : Bool := decide (h.toNat < Config.pktSize)

/-- The length of `CRC` must be `<= 16` (R61). -/
def lengthInBuffer (a : Byte) : Bool := decide (a.toNat ≤ Config.pktSize)

/-- The slot index of `RDSLOT` must be `< CAPACITY` (R61). -/
def indexInCache (c : Configuration) (h : Half) : Bool := decide (h.toNat < c.capacity)

/-- The tick of `UPSERT` and `RXPKT` must be `< 2^TICK_W` (R61); any value when `TICK_W` is 32. -/
def tickInRange (c : Configuration) (t : Word32) : Bool := decide (t.toNat < 2 ^ c.tickW)

/-- A tick operand in range, as the `TICK_W`-bit number it spells (R61). -/
def tickOf (c : Configuration) (t : Word32) : BitVec c.tickW := t.setWidth c.tickW

/-- `lo8(v) = v[7:0]` (R10). -/
def lo8 (v : Half) : Byte := v.extractLsb' 0 8

/-- `hi8(v) = v[15:8]` (R10). -/
def hi8 (v : Half) : Byte := v.extractLsb' 8 8

/-- `swap16(v)` (R11). -/
def swap16 (v : Half) : Half := ((lo8 v).setWidth 16 <<< 8) ||| (hi8 v).setWidth 16

/-- `be16(B, o) = (B[o] << 8) or B[o+1]`: a 16-bit field, most significant byte first (R11, R42). Log entry 9. -/
def be16 (B : Block) (o : Fin 15) : Half := (B[o.val].setWidth 16 <<< 8) ||| B[o.val + 1].setWidth 16

end Sys2Proof
end

