-- ==== Sys2Proof/Syntax.lean ====
section
/-! DEFINITION. The eleven commands of OBC-1 (R63), one constructor per row of spec/opcode_table.json. -/

namespace Sys2Proof

/-- A command with the operand fields its row uses (R61); the fields a row requires to be zero are not written. -/
inductive Instr where
  /-- `NOP` (R170). -/
  | nop
  /-- `PUTB idx, byte` (R171). -/
  | putb (idx : Half) (byte : Byte)
  /-- `GETB idx` (R172). -/
  | getb (idx : Half)
  /-- `CRC len` (R85). -/
  | crc (len : Byte)
  /-- `CHK` (R86). -/
  | chk
  /-- `NORM` (R101). -/
  | norm
  /-- `DEC` (R114). -/
  | dec
  /-- `DISP` (R122). -/
  | disp
  /-- `UPSERT id, strength, tick` (R135). -/
  | upsert (id : Half) (strength : Byte) (tick : Word32)
  /-- `RDSLOT idx` (R145). -/
  | rdslot (idx : Half)
  /-- `RXPKT tick` (R160). -/
  | rxpkt (tick : Word32)
  deriving DecidableEq, Repr

end Sys2Proof
end

