-- ==== Sys2Proof/WellFormed.lean ====
section
/-! DEFINITION. When a command's operands are in the ranges R61 and R63 give; the bounds themselves are in Machine/Operands. -/

namespace Sys2Proof

/-- The operand conditions of R61 and R63 under a configuration. A command that fails them is refused with `ERR_OPERAND`
(R62, R184). -/
def Instr.wellFormedFor (c : Configuration) : Instr → Bool
  | .nop => true
  | .putb idx _ => indexInBuffer idx
  | .getb idx => indexInBuffer idx
  | .crc len => lengthInBuffer len
  | .chk => true
  | .norm => true
  | .dec => true
  | .disp => true
  | .upsert _ _ tick => tickInRange c tick
  | .rdslot idx => indexInCache c idx
  | .rxpkt tick => tickInRange c tick

/-- The operand conditions of this hardware. -/
def Instr.wellFormed (i : Instr) : Bool := i.wellFormedFor Config.record

end Sys2Proof
end

