-- ==== Sys2Proof/Decode.lean ====
section
/-! DEFINITION. Decoding a 64-bit word to one of the three verdicts of R64, the encoder, and the opcode map as rows (R63). -/

namespace Sys2Proof

/-- The three verdicts of decoding (R64). -/
inductive Verdict where
  /-- The word's `op` is reserved: answered with `ERR_OPCODE` (R183). -/
  | noCommand
  /-- The word's `op` selects a command but its operands fail that command's conditions: `ERR_OPERAND` (R184). -/
  | illFormed
  /-- The word is this command. -/
  | command (i : Instr)
  deriving DecidableEq, Repr

/-- The opcode of a command (R63). -/
def Instr.opcode : Instr → Byte
  | .nop => 0x00#8
  | .putb _ _ => 0x01#8
  | .getb _ => 0x02#8
  | .crc _ => 0x10#8
  | .chk => 0x11#8
  | .norm => 0x20#8
  | .dec => 0x30#8
  | .disp => 0x40#8
  | .upsert _ _ _ => 0x50#8
  | .rdslot _ => 0x51#8
  | .rxpkt _ => 0x60#8

/-- Verdict of a word whose `op` selects `i`: `zeros` says that its must-be-zero fields are zero (R62). -/
def accept (c : Configuration) (zeros : Bool) (i : Instr) : Verdict :=
  if zeros && i.wellFormedFor c then .command i else .illFormed

/-- Decoding under a configuration, total on all `2^64` words, all eight bits of `op` compared (R63, R64). -/
def decodeFor (c : Configuration) (w : Word) : Verdict :=
  let op := opField w
  let a := aField w
  let h := hField w
  let t := tField w
  if op = 0x00#8 then accept c (a == 0#8 && h == 0#16 && t == 0#32) .nop
  else if op = 0x01#8 then accept c (t == 0#32) (.putb h a)
  else if op = 0x02#8 then accept c (a == 0#8 && t == 0#32) (.getb h)
  else if op = 0x10#8 then accept c (h == 0#16 && t == 0#32) (.crc a)
  else if op = 0x11#8 then accept c (a == 0#8 && h == 0#16 && t == 0#32) .chk
  else if op = 0x20#8 then accept c (a == 0#8 && h == 0#16 && t == 0#32) .norm
  else if op = 0x30#8 then accept c (a == 0#8 && h == 0#16 && t == 0#32) .dec
  else if op = 0x40#8 then accept c (a == 0#8 && h == 0#16 && t == 0#32) .disp
  else if op = 0x50#8 then accept c true (.upsert h a t)
  else if op = 0x51#8 then accept c (a == 0#8 && t == 0#32) (.rdslot h)
  else if op = 0x60#8 then accept c (a == 0#8 && h == 0#16) (.rxpkt t)
  else .noCommand

/-- This hardware's decoder. -/
def decode (w : Word) : Verdict := decodeFor Config.record w

/-- The word of a command: its opcode, its operands in their fields, zero elsewhere (R60, R61). -/
def encode : Instr → Word
  | .nop => packWord 0x00#8 0#8 0#16 0#32
  | .putb idx byte => packWord 0x01#8 byte idx 0#32
  | .getb idx => packWord 0x02#8 0#8 idx 0#32
  | .crc len => packWord 0x10#8 len 0#16 0#32
  | .chk => packWord 0x11#8 0#8 0#16 0#32
  | .norm => packWord 0x20#8 0#8 0#16 0#32
  | .dec => packWord 0x30#8 0#8 0#16 0#32
  | .disp => packWord 0x40#8 0#8 0#16 0#32
  | .upsert id strength tick => packWord 0x50#8 strength id tick
  | .rdslot idx => packWord 0x51#8 0#8 idx 0#32
  | .rxpkt tick => packWord 0x60#8 0#8 0#16 tick

/-- The 64-bit word whose bits are `w`, bits at and above `nbits` zero: a command is one word and lies in no memory, so there is
no byte order to apply (R60, R66, R28). -/
def tableWord (nbits w : Nat) : Word := BitVec.ofNat 64 (w % 2 ^ nbits)

/-- The command the decoder reads from an opcode-table word, none where it refuses. -/
def decodeTableWord (nbits w : Nat) : Option Instr :=
  match decode (tableWord nbits w) with
  | .command i => some i
  | .illFormed => none
  | .noCommand => none

/-- One row of the opcode map (R63): a word is a well-formed instance of the row when `(w and mask) = pattern` and the extra
condition holds. -/
structure OpRow where
  /-- The row's `op`. -/
  op : Byte
  /-- The row's `match`. -/
  pattern : Word
  /-- The row's `mask`. -/
  mask : Word
  deriving DecidableEq, Repr

/-- The opcode map of R63, in its order; the mask of `RDSLOT` is the one R63 writes, for `CAPACITY` 8. -/
def opcodeMap : List OpRow :=
  [ ⟨0x00#8, 0x0000000000000000#64, 0xFFFFFFFFFFFFFFFF#64⟩,
    ⟨0x01#8, 0x0100000000000000#64, 0xFF00FFF0FFFFFFFF#64⟩,
    ⟨0x02#8, 0x0200000000000000#64, 0xFFFFFFF0FFFFFFFF#64⟩,
    ⟨0x10#8, 0x1000000000000000#64, 0xFFE0FFFFFFFFFFFF#64⟩,
    ⟨0x11#8, 0x1100000000000000#64, 0xFFFFFFFFFFFFFFFF#64⟩,
    ⟨0x20#8, 0x2000000000000000#64, 0xFFFFFFFFFFFFFFFF#64⟩,
    ⟨0x30#8, 0x3000000000000000#64, 0xFFFFFFFFFFFFFFFF#64⟩,
    ⟨0x40#8, 0x4000000000000000#64, 0xFFFFFFFFFFFFFFFF#64⟩,
    ⟨0x50#8, 0x5000000000000000#64, 0xFF00000000000000#64⟩,
    ⟨0x51#8, 0x5100000000000000#64, 0xFFFFFFF8FFFFFFFF#64⟩,
    ⟨0x60#8, 0x6000000000000000#64, 0xFFFFFFFF00000000#64⟩ ]

/-- The extra condition of R63: `a <= 16` for `CRC`, `h < CAPACITY` for `RDSLOT`, `t < 2^TICK_W` for `UPSERT` and `RXPKT`. -/
def extraCondition (w : Word) : Bool :=
  (opField w != 0x10#8 || lengthInBuffer (aField w)) && (opField w != 0x51#8 || indexInCache Config.record (hField w)) &&
    (opField w != 0x50#8 && opField w != 0x60#8 || tickInRange Config.record (tField w))

/-- The word is a well-formed instance of some row of the opcode map (R63). -/
def inOpcodeMap (w : Word) : Bool :=
  opcodeMap.any (fun r => w &&& r.mask == r.pattern) && extraCondition w

end Sys2Proof
end

