-- ==== Sys2Proof/Machine/State.lean ====
section
/-! DEFINITION. The state of the unit as plain data (R20, R24), the command port around it, and the state after reset (R33). -/

namespace Sys2Proof.Machine

/-- A byte memory as (address, byte) pairs in one canonical form (`Memory.wf`, Machine/Ops). Log entry 4. -/
abbrev Memory := List Host.Cell

/-- A BeaconRecord (R23) with a tick of `w` bits: three unsigned numbers, no valid bit. -/
structure BeaconRecord (w : Nat) where
  /-- Tag identifier. -/
  id : Half
  /-- Signal-strength metric. -/
  strength : Byte
  /-- Tick operand of the last command that wrote the record. -/
  lastSeenTick : BitVec w
  deriving DecidableEq, Repr

/-- The record every slot holds after reset: `(0, 0, 0)` (R33). -/
def BeaconRecord.zero (w : Nat) : BeaconRecord w := ⟨0#16, 0#8, 0#w⟩

/-- A beacon cache of `n` slots (R24). -/
abbrev Cache (w n : Nat) := Vector (BeaconRecord w) n

/-- The five statuses (R181, U15). -/
inductive Status where
  /-- Success. -/
  | ok
  /-- Packet outcome: checksum mismatch (R185). -/
  | crcFail
  /-- Packet outcome: capacity exhausted (R186). -/
  | cacheFull
  /-- Malformed command: reserved `op` (R183). -/
  | errOpcode
  /-- Malformed command: operand out of range (R184). -/
  | errOperand
  deriving DecidableEq, Repr

/-- The four fields of a response (R180); its 64-bit word is `Response.word` (Machine/Flags). -/
structure Response where
  /-- Bits 63:56, as a name. -/
  status : Status
  /-- Bits 55:48. -/
  a : Byte
  /-- Bits 47:32. -/
  h : Half
  /-- Bits 31:0. -/
  t : Word32
  deriving DecidableEq, Repr

/-- `State = (PKT, CACHE)` of R6: the unit's whole state under a configuration (R7), and nothing else. -/
structure UnitState (c : Configuration) where
  /-- `PKT`, bytes 0..15 (R20). -/
  pkt : Memory
  /-- `CACHE`, slots 0..CAPACITY-1 (R24). -/
  cache : Cache c.tickW c.capacity
  deriving DecidableEq, Repr

/-- The state of this machine: the unit's `PKT` and `CACHE` under `Config.record` (R6, R20, R24), with the two ends of its command
port. -/
structure State where
  /-- `PKT`, bytes 0..15 (R20). -/
  pkt : Memory
  /-- `CACHE`, slots 0..CAPACITY-1 (R24). -/
  cache : Cache Config.tickW Config.capacity
  /-- The MODEL's own field: command words the host has presented, oldest first (R214). Log entry 5. -/
  pending : List Word
  /-- The MODEL's own field: the responses given, oldest first (R214). Log entry 6. -/
  responses : List Response
  deriving DecidableEq, Repr

/-- The unit never faults (R182, R190; "No behaviour of the unit is `fault` or `stuck`"): there is no fault to name, so no one
raises one. Log entry 7. -/
inductive Fault where
  deriving DecidableEq, Repr

/-- Why a step gives no meaning. -/
inductive Refusal where
  /-- Raised by an arm of `exec` whose command has no meaning in the model yet; safe. No arm raises it. -/
  | notModelled (mnemonic : String)
  deriving DecidableEq, Repr

/-- After reset (R33, R201): every byte of `PKT` is `0x00` (what an unlisted address reads as), every slot is `(0, 0, 0)`, no
command has been presented and none answered (log entries 5 and 6). -/
def State.reset : State where
  pkt := []
  cache := Vector.replicate Config.capacity (BeaconRecord.zero Config.tickW)
  pending := []
  responses := []

end Sys2Proof.Machine
end

