-- ==== Sys2Proof/Machine/Ops.lean ====
section
/-! DEFINITION. The named operations over the packet buffer and the command port: `MemRead`, `MemWrite`, `respond`, `raise` (R12). -/

namespace Sys2Proof.Machine

/-- What an unlisted address reads as: the reset contents of `PKT` (R33). -/
def Memory.unlisted : Byte := 0x00#8

/-- `PKT[a]` (R12). -/
def Memory.read : Memory → Nat → Byte
  | [], _ => Memory.unlisted
  | (k, v) :: rest, a => if k = a then v else Memory.read rest a

/-- No entry for address `a` any more. -/
def Memory.forget (m : Memory) (a : Nat) : Memory := m.filter (fun c => c.1 != a)

/-- The entry `(a, v)` put before the first greater address. -/
def Memory.put : Memory → Nat → Byte → Memory
  | [], a, v => [(a, v)]
  | (k, x) :: rest, a, v => if a < k then (a, v) :: (k, x) :: rest else (k, x) :: Memory.put rest a v

/-- `PKT[a] <- v` (R12), keeping the canonical form: storing what an unlisted address reads as removes the entry. -/
def Memory.write (m : Memory) (a : Nat) (v : Byte) : Memory :=
  if v = Memory.unlisted then m.forget a else (m.forget a).put a v

/-- The canonical form: addresses strictly rising and inside the buffer (R20), no entry equal to an unlisted one. -/
abbrev Memory.wf (m : Memory) : Prop :=
  m.Pairwise (fun c d => c.1 < d.1) ∧ ∀ c ∈ m, c.1 < Config.pktSize ∧ c.2 ≠ Memory.unlisted

/-- `MemRead(addr, n)`, the list `PKT[addr .. addr+n-1]` (R12). -/
def Memory.readList (m : Memory) (addr n : Nat) : List Byte := (List.range n).map (fun k => m.read (addr + k))

/-- `MemWrite(addr, n, v)` with `n` the length of `v` (R12). -/
def Memory.writeList (m : Memory) (addr : Nat) : List Byte → Memory
  | [] => m
  | v :: vs => Memory.writeList (m.write addr v) (addr + 1) vs

/-- `MemRead(0, 16)`: the whole buffer as a block. -/
def Memory.block (m : Memory) : Block := Vector.ofFn (fun i : Fin 16 => m.read i.val)

/-- `MemWrite(0, 16, B)`. -/
def Memory.writeBlock (m : Memory) (B : Block) : Memory := m.writeList 0 B.toList

variable {c : Configuration}

/-- The unit with another packet buffer. -/
def UnitState.withPkt (u : UnitState c) (m : Memory) : UnitState c := { u with pkt := m }

/-- The unit with another cache. -/
def UnitState.withCache (u : UnitState c) (C : Cache c.tickW c.capacity) : UnitState c := { u with cache := C }

/-- `respond OK(a, h, t)` (R12): what a command leaves and answers. -/
def UnitState.respondOk (u : UnitState c) (a : Byte) (h : Half) (t : Word32) : UnitState c × Response := (u, ⟨.ok, a, h, t⟩)

/-- `raise <Status>(a, h, t)` (R12): the command ends with this status. It is not a trap: nothing is saved, nothing is vectored
(R182, R190). -/
def UnitState.raise (u : UnitState c) (st : Status) (a : Byte) (h : Half) (t : Word32) : UnitState c × Response := (u, ⟨st, a, h, t⟩)

/-- The first line of every command's pseudocode: operands out of range end the command with `ERR_OPERAND`, all result fields
zero and no state touched (R184); otherwise the command has its effect. -/
def UnitState.checked (u : UnitState c) (operandsOk : Bool) (effect : UnitState c × Response) : UnitState c × Response :=
  if operandsOk then effect else u.raise .errOperand 0#8 0#16 0#32

/-- The state with another packet buffer. -/
def State.withPkt (s : State) (m : Memory) : State := { s with pkt := m }

/-- The state with another cache. -/
def State.withCache (s : State) (C : Cache Config.tickW Config.capacity) : State := { s with cache := C }

/-- The command ends with this response: exactly one per command (R180). -/
def State.answer (s : State) (r : Response) : State := { s with responses := s.responses ++ [r] }

/-- The unit's state inside the machine's. -/
def State.unit (s : State) : UnitState Config.record := ⟨s.pkt, s.cache⟩

/-- One command carried out by the unit of this machine, its response recorded (R6, R180). -/
def State.performs (s : State) (f : UnitState Config.record → UnitState Config.record × Response) : State :=
  ((s.withPkt (f s.unit).1.pkt).withCache (f s.unit).1.cache).answer (f s.unit).2

/-- The command word the host has presented next, and the state in which it runs (R28, R214); none when it has presented none. -/
def State.takeCommand (s : State) : Option (Word × State) :=
  match s.pending with
  | [] => none
  | w :: rest => some (w, { s with pending := rest })

/-- The host presents `w` as the next command. -/
def State.present (s : State) (w : Word) : State := { s with pending := w :: s.pending }

end Sys2Proof.Machine
end

