-- ==== Sys2Proof/Machine/Buffer.lean ====
section
/-! DEFINITION. Buffer access (46_buffer_access.md): `NOP`, `PUTB`, `GETB`. -/

namespace Sys2Proof.Machine

variable {c : Configuration}

/-- What `NOP` does (R170). -/
def UnitState.nop (u : UnitState c) : UnitState c × Response := u.respondOk 0#8 0#16 0#32

/-- What `PUTB` does (R171). -/
def UnitState.putb (idx : Half) (byte : Byte) (u : UnitState c) : UnitState c × Response :=
  u.checked (indexInBuffer idx) ((u.withPkt (u.pkt.write idx.toNat byte)).respondOk 0#8 0#16 0#32)

/-- What `GETB` does (R172). -/
def UnitState.getb (idx : Half) (u : UnitState c) : UnitState c × Response :=
  u.checked (indexInBuffer idx) (u.respondOk (u.pkt.read idx.toNat) 0#16 0#32)

/-- `NOP` (R170). -/
def execNop (s : State) : Host.Outcome State Fault Refusal := .next (s.performs UnitState.nop)

/-- `PUTB idx, byte` (R171). -/
def execPutb (idx : Half) (byte : Byte) (s : State) : Host.Outcome State Fault Refusal :=
  .next (s.performs (UnitState.putb idx byte))

/-- `GETB idx` (R172). -/
def execGetb (idx : Half) (s : State) : Host.Outcome State Fault Refusal := .next (s.performs (UnitState.getb idx))

end Sys2Proof.Machine
end

