-- ==== Sys2Proof/Machine/BeaconCache.lean ====
section
/-! DEFINITION. The Beacon Cache (44_cache.md): staleness, the three-phase `upsert`, `UPSERT`, `RDSLOT`. The functions are written
for every capacity `n`, tick width `w` and cutoff. -/

namespace Sys2Proof.Machine

/-- `threshold(t) = (t - CUTOFF) mod 2^TICK_W` (R132). -/
def threshold {w : Nat} (cutoff t : BitVec w) : BitVec w := t - cutoff

/-- `stale(r, t)`: `lastSeenTick` unsigned-less-than the threshold, strictly (R132). -/
def stale {w : Nat} (cutoff : BitVec w) (r : BeaconRecord w) (t : BitVec w) : Bool :=
  decide (r.lastSeenTick.toNat < (threshold cutoff t).toNat)

/-- The first slot in index order whose record satisfies `p` (R24, R133). -/
def firstSlot {w n : Nat} (p : BeaconRecord w → Bool) (C : Cache w n) : Option (Fin n) :=
  (List.finRange n).find? (fun i => p C[i])

/-- What `upsert` returns (R130): the slot affected, or `CACHE_FULL`. -/
inductive UpsertResult (n : Nat) where
  /-- The slot of the affected record. -/
  | slot (i : Fin n)
  /-- No slot holds the id and none is stale. -/
  | cacheFull
  deriving DecidableEq, Repr

/-- The phase-1 condition (R134): the stored strength is at least the incoming one, or the record is stale. Log entry 10. -/
def overwrites {w : Nat} (cutoff : BitVec w) (r : BeaconRecord w) (strength : Byte) (t : BitVec w) : Bool :=
  decide (strength.toNat ≤ r.strength.toNat) || stale cutoff r t

/-- `upsert(C, id, s, t)` (R133). -/
def upsert {w n : Nat} (cutoff : BitVec w) (C : Cache w n) (id : Half) (strength : Byte) (t : BitVec w) :
    Cache w n × UpsertResult n :=
  match firstSlot (fun r => r.id == id) C with
  | some i =>
    if overwrites cutoff C[i] strength t then
      (C.set i { C[i] with strength := strength, lastSeenTick := t }, .slot i)
    else (C, .slot i)
  | none =>
    match firstSlot (fun r => stale cutoff r t) C with
    | some i => (C.set i ⟨id, strength, t⟩, .slot i)
    | none => (C, .cacheFull)

/-- How many slots hold the id `v`, stale or not (R141). -/
def idCount {w n : Nat} (C : Cache w n) (v : Half) : Nat := (List.finRange n).countP (fun i => C[i].id == v)

/-- `CUTOFF` as a tick (R7, R132). -/
def cutoffTickOf (c : Configuration) : BitVec c.tickW := BitVec.ofNat c.tickW c.cutoff

/-- This machine's `CUTOFF` as a tick (R7, R132). -/
def cutoffTick : Tick := cutoffTickOf Config.record

/-- A slot index in the `t` field of a response (R135, R160). -/
def slotWord {n : Nat} (i : Fin n) : Word32 := BitVec.ofNat 32 i.val

variable {c : Configuration}

/-- `upsert` on the unit's cache with a tick operand. -/
def UnitState.upserted (id : Half) (strength : Byte) (tick : Word32) (u : UnitState c) :
    Cache c.tickW c.capacity × UpsertResult c.capacity :=
  Machine.upsert (cutoffTickOf c) u.cache id strength (tickOf c tick)

/-- What `UPSERT` does (R135). -/
def UnitState.upsert (id : Half) (strength : Byte) (tick : Word32) (u : UnitState c) : UnitState c × Response :=
  u.checked (tickInRange c tick)
    (match u.upserted id strength tick with
    | (C, .slot i) => (u.withCache C).respondOk 0#8 0#16 (slotWord i)
    | (C, .cacheFull) => (u.withCache C).raise .cacheFull 0#8 0#16 0#32)

/-- `CACHE[idx]` for an index inside the table (R145). -/
def UnitState.slotAt (u : UnitState c) (idx : Nat) : BeaconRecord c.tickW :=
  if h : idx < c.capacity then u.cache[idx] else BeaconRecord.zero c.tickW

/-- What `RDSLOT` does (R145). -/
def UnitState.rdslot (idx : Half) (u : UnitState c) : UnitState c × Response :=
  u.checked (indexInCache c idx)
    (u.respondOk (u.slotAt idx.toNat).strength (u.slotAt idx.toNat).id ((u.slotAt idx.toNat).lastSeenTick.setWidth 32))

/-- `UPSERT id, strength, tick` (R135). -/
def execUpsert (id : Half) (strength : Byte) (tick : Word32) (s : State) : Host.Outcome State Fault Refusal :=
  .next (s.performs (UnitState.upsert id strength tick))

/-- `RDSLOT idx` (R145). -/
def execRdslot (idx : Half) (s : State) : Host.Outcome State Fault Refusal := .next (s.performs (UnitState.rdslot idx))

end Sys2Proof.Machine
end

