-- ==== Sys2Proof/Machine/Checksum.lean ====
section
/-! DEFINITION. The Checksum Unit (40_checksum.md): the function, `CRC`, `CHK`, and the verification of a block. -/

namespace Sys2Proof.Machine

/-- One byte into the accumulator (R80), every intermediate value named as the rule names it. -/
def crcStep (acc : Half) (b : Byte) : Half :=
  let s1 := (acc >>> 8) ||| (acc <<< 8)
  let s2 := s1 ^^^ b.setWidth 16
  let s3 := s2 ^^^ ((s2 &&& 0x00FF#16) >>> 4)
  let s4 := s3 ^^^ (s3 <<< 12)
  let s5 := s4 ^^^ ((s4 &&& 0x00FF#16) <<< 5)
  s5

/-- The bytes of `L` into the accumulator, first byte first (R81; from 0 it is the `crc0` of R89). -/
def crcFold (acc : Half) (L : List Byte) : Half := L.foldl crcStep acc

/-- `checksum(L)` (R81). -/
def checksum (L : List Byte) : Half := crcFold Config.crcInit L

/-- One bit of the polynomial form of R88: shift left, and exclusive-or `0x1021` when bit 15 was set. -/
def crcBit (acc : Half) : Half := if acc.msb then (acc <<< 1) ^^^ 0x1021#16 else acc <<< 1

/-- The polynomial form `crc_bitwise` of R88. No command computes it; the law R88 says that it equals `crcStep`. -/
def crcBitwise (acc : Half) (b : Byte) : Half := Nat.repeat crcBit 8 (acc ^^^ (b.setWidth 16 <<< 8))

/-- The checksum over bytes 0..13 of a block (R86, R87). -/
def computedChecksum (B : Block) : Half := checksum (B.toList.take Config.offCrc)

/-- The checksum a block carries in bytes 14 and 15 (R42, R86). -/
def carriedChecksum (B : Block) : Half := be16 B 14

/-- `verify(B)` (R87). -/
def verify (B : Block) : Bool := computedChecksum B == carriedChecksum B

variable {c : Configuration}

/-- What `CRC` does (R85). -/
def UnitState.crc (len : Byte) (u : UnitState c) : UnitState c × Response :=
  u.checked (lengthInBuffer len) (u.respondOk 0#8 (checksum (u.pkt.readList 0 len.toNat)) 0#32)

/-- What `CHK` does (R86): `h` is the checksum computed, `t` the checksum carried, whatever the verdict. -/
def UnitState.chk (u : UnitState c) : UnitState c × Response :=
  if verify u.pkt.block then
    u.respondOk 0#8 (computedChecksum u.pkt.block) ((carriedChecksum u.pkt.block).setWidth 32)
  else
    u.raise .crcFail 0#8 (computedChecksum u.pkt.block) ((carriedChecksum u.pkt.block).setWidth 32)

/-- `CRC len` (R85). -/
def execCrc (len : Byte) (s : State) : Host.Outcome State Fault Refusal := .next (s.performs (UnitState.crc len))

/-- `CHK` (R86). -/
def execChk (s : State) : Host.Outcome State Fault Refusal := .next (s.performs UnitState.chk)

end Sys2Proof.Machine
end

