-- ==== Sys2Proof/Machine/Cipher.lean ====
section
/-! DEFINITION. The Payload Cipher (42_cipher.md): `DEC`, over the configuration's bijection. -/

namespace Sys2Proof.Machine

variable {c : Configuration}

/-- The effect of `DEC` under a decryption function (R114). -/
def UnitState.decryptWith (dec : Block → Block) (u : UnitState c) : UnitState c × Response :=
  (u.withPkt (u.pkt.writeBlock (dec u.pkt.block))).respondOk 0#8 0#16 0#32

/-- What `DEC` does (R114). -/
def UnitState.dec (u : UnitState c) : UnitState c × Response := u.decryptWith c.cipher

/-- `DEC` (R114). -/
def execDec (s : State) : Host.Outcome State Fault Refusal := .next (s.performs UnitState.dec)

end Sys2Proof.Machine
end

