-- ==== Sys2Proof/Machine/Dispatcher.lean ====
section
/-! DEFINITION. The Protocol Dispatcher (43_dispatcher.md): field extraction, the three cases, `DISP`. -/

namespace Sys2Proof.Machine

/-- The DecodedPacket (R120): alive inside one command, no state (R30). -/
structure DecodedPacket where
  /-- Tag identifier. -/
  oid : Half
  /-- Protocol-variant tag. -/
  proto : Byte
  /-- The strength byte as it lies in the block. -/
  rawStrength : Byte
  /-- The checksum carried in the block. -/
  carried : Half
  deriving DecidableEq, Repr

/-- The normalized observation `dispatch` returns (R121). -/
structure Observation where
  /-- Tag identifier. -/
  oid : Half
  /-- Protocol-variant tag. -/
  proto : Byte
  /-- The strength after the variant's rule. -/
  trackerStrength : Byte
  deriving DecidableEq, Repr

/-- `decode(B)` (R120). -/
def decodePacket (L : Layout) (B : Block) : DecodedPacket where
  oid := be16 B ⟨L.offOid.val, by omega⟩
  proto := B[L.offProto.val]
  rawStrength := B[L.offStrength.val]
  carried := be16 B 14

/-- The variants whose strength is forced (R121). -/
def isProximity (L : Layout) (proto : Byte) : Bool := proto == L.protoProxReport || proto == L.protoProxReportExt

/-- `dispatch(B)` (R121): proximity reports get strength 3, every other variant value passes through (R124). -/
def dispatch (L : Layout) (B : Block) : Observation where
  oid := (decodePacket L B).oid
  proto := (decodePacket L B).proto
  trackerStrength :=
    if isProximity L (decodePacket L B).proto then Config.proxStrength else (decodePacket L B).rawStrength

variable {c : Configuration}

/-- The effect of `DISP` under a layout (R122): the observation is the response, the buffer stays. -/
def UnitState.dispatchWith (L : Layout) (u : UnitState c) : UnitState c × Response :=
  u.respondOk (dispatch L u.pkt.block).trackerStrength (dispatch L u.pkt.block).oid
    ((dispatch L u.pkt.block).proto.setWidth 32)

/-- What `DISP` does (R122). -/
def UnitState.disp (u : UnitState c) : UnitState c × Response := u.dispatchWith c.layout

/-- `DISP` (R122). -/
def execDisp (s : State) : Host.Outcome State Fault Refusal := .next (s.performs UnitState.disp)

end Sys2Proof.Machine
end

