-- ==== Sys2Proof/Machine/Normalizer.lean ====
section
/-! DEFINITION. The Byte-Order Normalizer (41_normalizer.md): the permutation and `NORM`. -/

namespace Sys2Proof.Machine

/-- `normalize(B)` (R100): byte `4*g + k` of the result is byte `4*g + (3 - k)` of `B`. -/
def normalizeBlock (B : Block) : Block :=
  Vector.ofFn (fun i : Fin 16 => B[4 * (i.val / 4) + (3 - i.val % 4)]'(by omega))

/-- What `NORM` does (R101): the new buffer is computed from the old buffer as a whole. -/
def UnitState.norm {c : Configuration} (u : UnitState c) : UnitState c × Response :=
  (u.withPkt (u.pkt.writeBlock (normalizeBlock u.pkt.block))).respondOk 0#8 0#16 0#32

/-- `NORM` (R101). -/
def execNorm (s : State) : Host.Outcome State Fault Refusal := .next (s.performs UnitState.norm)

end Sys2Proof.Machine
end

