-- ==== Sys2Proof/Machine/Pipeline.lean ====
section
/-! DEFINITION. The per-packet pipeline (45_pipeline.md): `RXPKT`, and the inverse pipeline that builds a wire packet (R165). -/

namespace Sys2Proof.Machine

/-- The three in-place transforms (R160, R161): `normalize`, `DEC`, `normalize`. -/
def plaintextOf (dec : Block → Block) (B : Block) : Block := normalizeBlock (dec (normalizeBlock B))

/-- The wire packet of a plaintext block (R165): `normalize(ENC(normalize(P)))`. No command computes it. -/
def wirePacketOf (enc : Block → Block) (P : Block) : Block := normalizeBlock (enc (normalizeBlock P))

/-- The block `B` with the checksum of its first fourteen bytes in the trailing field, high byte first (R165). -/
def sealBlock (B : Block) : Block :=
  (B.set 14 (hi8 (computedChecksum B))).set 15 (lo8 (computedChecksum B))

variable {c : Configuration}

/-- The effect of a well-formed `RXPKT` under a layout and a decryption function (R160). -/
def UnitState.receiveWith (L : Layout) (dec : Block → Block) (tick : Word32) (u : UnitState c) : UnitState c × Response :=
  let B := plaintextOf dec u.pkt.block
  let u' := u.withPkt (u.pkt.writeBlock B)
  if verify B then
    let o := dispatch L B
    match u.upserted o.oid o.trackerStrength tick with
    | (C, .slot i) => (u'.withCache C).respondOk o.trackerStrength o.oid (slotWord i)
    | (C, .cacheFull) => (u'.withCache C).raise .cacheFull o.trackerStrength o.oid 0#32
  else u'.raise .crcFail 0#8 (computedChecksum B) ((carriedChecksum B).setWidth 32)

/-- What `RXPKT` does (R160). -/
def UnitState.rxpkt (tick : Word32) (u : UnitState c) : UnitState c × Response :=
  u.checked (tickInRange c tick) (u.receiveWith c.layout c.cipher tick)

/-- `RXPKT tick` (R160). -/
def execRxpkt (tick : Word32) (s : State) : Host.Outcome State Fault Refusal := .next (s.performs (UnitState.rxpkt tick))

end Sys2Proof.Machine
end

