-- ==== Sys2Proof/Machine/Dispatch.lean ====
section
/-! DEFINITION. One arm per command: its meaning. -/

namespace Sys2Proof.Machine

def exec (i : Instr) (s : State) : Host.Outcome State Fault Refusal :=
  match i with
  -- 46_buffer_access.md
  | .nop => Sys2Proof.Machine.execNop s
  | .putb idx byte => Sys2Proof.Machine.execPutb idx byte s
  | .getb idx => Sys2Proof.Machine.execGetb idx s
  -- 40_checksum.md
  | .crc len => Sys2Proof.Machine.execCrc len s
  | .chk => Sys2Proof.Machine.execChk s
  -- 41_normalizer.md, 42_cipher.md, 43_dispatcher.md
  | .norm => Sys2Proof.Machine.execNorm s
  | .dec => Sys2Proof.Machine.execDec s
  | .disp => Sys2Proof.Machine.execDisp s
  -- 44_cache.md
  | .upsert id strength tick => Sys2Proof.Machine.execUpsert id strength tick s
  | .rdslot idx => Sys2Proof.Machine.execRdslot idx s
  -- 45_pipeline.md
  | .rxpkt tick => Sys2Proof.Machine.execRxpkt tick s

end Sys2Proof.Machine
end

