-- ==== Sys2Proof/Machine/Port.lean ====
section
/-! DEFINITION. Running one command word: the verdict of decoding (R64), then the command or its refusal (R183, R184). -/

namespace Sys2Proof.Machine

/-- The unit's answer to one command word (R6, R64, R188): a reserved `op` and ill-formed operands answer an error status and
change nothing else. -/
def runWord (w : Word) (s : State) : Host.Outcome State Fault Refusal :=
  match decode w with
  | .noCommand => .next (s.answer ⟨.errOpcode, 0#8, 0#16, 0#32⟩)
  | .illFormed => .next (s.answer ⟨.errOperand, 0#8, 0#16, 0#32⟩)
  | .command i => exec i s

/-- With a command presented, the unit takes it and runs it to completion (R5); with none it holds its state (R197). -/
def serve (s : State) : Host.Outcome State Fault Refusal :=
  match s.takeCommand with
  | none => .next s
  | some (w, s') => runWord w s'

end Sys2Proof.Machine
end

