-- ==== Sys2Proof/Machine/Step.lean ====
section
/-! DEFINITION. One step of the machine, and how a command word is placed as the next to run. -/

namespace Sys2Proof.Machine

/-- One step: the next presented command word is taken, decoded and run (R5, R6). Log entry 5. -/
def step (s : State) : Host.Outcome State Fault Refusal := serve s

/-- `s` with the word the host presents next: the command of the very next step. Log entry 8. -/
def State.withFetchWord (s : State) (nbits w : Nat) : State := s.present (tableWord nbits w)

end Sys2Proof.Machine
end

