-- ==== Sys2Proof/Machine/Flags.lean ====
section
/-! DEFINITION. The unit has no flags (R29): the outcome of a command is the status byte of its response and nowhere else. This
file gives the status codes (R181) and the response word (R180). -/

namespace Sys2Proof.Machine

/-- The status codes (R181). -/
def Status.code : Status → Byte
  | .ok => 0x00#8
  | .crcFail => 0x01#8
  | .cacheFull => 0x02#8
  | .errOpcode => 0x80#8
  | .errOperand => 0x81#8

/-- The 64-bit response word the host receives (R180). -/
def Response.word (r : Response) : Word := packWord r.status.code r.a r.h r.t

end Sys2Proof.Machine
end

