-- ==== Sys2Proof/Machine/StandIns.lean ====
section
/-! DEFINITION. The three test stand-ins for the cipher (R115, 95_test_vectors.md T3). None is the machine's cipher: they only let
tests run the cipher-dependent commands on concrete bytes. -/

namespace Sys2Proof.Machine

/-- The stand-ins of R115. -/
inductive StandIn where
  /-- `ID`. -/
  | ident
  /-- `XOR_K`. -/
  | xorK
  /-- `SUB32LE_K`. -/
  | sub32leK
  deriving DecidableEq, Repr

/-- The key `K` of `XOR_K` (T3). -/
def xorKey : Block :=
  #v[0xA5#8, 0x5A#8, 0x3C#8, 0xC3#8, 0x0F#8, 0xF0#8, 0x11#8, 0x22#8, 0x33#8, 0x44#8, 0x55#8, 0x66#8, 0x77#8, 0x88#8, 0x99#8, 0xAA#8]

/-- The key words `KW` of `SUB32LE_K` (T3). -/
def subKey : Vector Word32 4 := #v[0x01234567#32, 0x89ABCDEF#32, 0xFEDCBA98#32, 0x76543210#32]

/-- Group `g` of a block as a 32-bit number, least significant byte first (T3). -/
def groupLe (B : Block) (g : Fin 4) : Word32 :=
  B[4 * g.val + 3] ++ B[4 * g.val + 2] ++ B[4 * g.val + 1] ++ B[4 * g.val]

/-- The block whose group `g` is the number `f g`, stored least significant byte first (T3). -/
def ofGroupsLe (f : Fin 4 → Word32) : Block :=
  Vector.ofFn (fun i : Fin 16 => (f ⟨i.val / 4, by omega⟩).extractLsb' (8 * (i.val % 4)) 8)

/-- The decryption of a stand-in (T3). -/
def StandIn.dec : StandIn → Block → Block
  | .ident, B => B
  | .xorK, B => Vector.ofFn (fun i : Fin 16 => B[i] ^^^ xorKey[i])
  | .sub32leK, B => ofGroupsLe (fun g => groupLe B g - subKey[g])

/-- The inverse of a stand-in's decryption (T3). -/
def StandIn.enc : StandIn → Block → Block
  | .ident, B => B
  | .xorK, B => Vector.ofFn (fun i : Fin 16 => B[i] ^^^ xorKey[i])
  | .sub32leK, B => ofGroupsLe (fun g => groupLe B g + subKey[g])

end Sys2Proof.Machine
end

