-- ==== Sys2Proof/Machine/Unit.lean ====
section
/-! DEFINITION. The whole unit as R6 gives it, `step : Config -> State -> Command -> State x Response`, with the configuration
record as its argument. `exec` and `step` of this machine are this function at `Config.record`, with the response recorded. -/

namespace Sys2Proof.Machine

variable {c : Configuration}

/-- What a command does (R63), under every configuration. -/
def UnitState.command (i : Instr) (u : UnitState c) : UnitState c × Response :=
  match i with
  | .nop => u.nop
  | .putb idx byte => u.putb idx byte
  | .getb idx => u.getb idx
  | .crc len => u.crc len
  | .chk => u.chk
  | .norm => u.norm
  | .dec => u.dec
  | .disp => u.disp
  | .upsert id strength tick => u.upsert id strength tick
  | .rdslot idx => u.rdslot idx
  | .rxpkt tick => u.rxpkt tick

/-- `step` of R6: a command word decoded (R64) and carried out, or refused with nothing changed (R183, R184). -/
def unitStep (c : Configuration) (u : UnitState c) (w : Word) : UnitState c × Response :=
  match decodeFor c w with
  | .noCommand => u.raise .errOpcode 0#8 0#16 0#32
  | .illFormed => u.raise .errOperand 0#8 0#16 0#32
  | .command i => u.command i

/-- A run of R214: a list of command words applied in order, with the list of responses. -/
def unitRun (c : Configuration) : UnitState c → List Word → UnitState c × List Response
  | u, [] => (u, [])
  | u, w :: ws => ((unitRun c (unitStep c u w).1 ws).1, (unitStep c u w).2 :: (unitRun c (unitStep c u w).1 ws).2)

end Sys2Proof.Machine
end

