-- ==== Sys2Proof/Machine/Assembler.lean ====
section
/-! DEFINITION. The textual form of a command (R67), the pseudo-instructions (R68), and what the host issues per packet (R192). -/

namespace Sys2Proof.Machine

/-- A mnemonic and its operands in decimal, separated by commas (R67). -/
def asmLine (mnemonic : String) (operands : List Nat) : String :=
  if operands.isEmpty then mnemonic else mnemonic ++ " " ++ ", ".intercalate (operands.map toString)

/-- The textual form of a command (R67); operands that must be zero are not written. -/
def asmText : Instr → String
  | .nop => asmLine "NOP" []
  | .putb idx byte => asmLine "PUTB" [idx.toNat, byte.toNat]
  | .getb idx => asmLine "GETB" [idx.toNat]
  | .crc len => asmLine "CRC" [len.toNat]
  | .chk => asmLine "CHK" []
  | .norm => asmLine "NORM" []
  | .dec => asmLine "DEC" []
  | .disp => asmLine "DISP" []
  | .upsert id strength tick => asmLine "UPSERT" [id.toNat, strength.toNat, tick.toNat]
  | .rdslot idx => asmLine "RDSLOT" [idx.toNat]
  | .rxpkt tick => asmLine "RXPKT" [tick.toNat]

/-- `LDPKT b0, ..., b15`: sixteen `PUTB`, index ascending (R68). -/
def ldpkt (B : Block) : List Instr := (List.finRange 16).map (fun i => .putb (BitVec.ofNat 16 i.val) B[i])

/-- `DECODE`: `NORM`, `DEC`, `NORM` (R68). -/
def decodePseudo : List Instr := [.norm, .dec, .norm]

/-- `RDPKT`: sixteen `GETB`, index ascending (R68). -/
def rdpkt : List Instr := (List.finRange 16).map (fun i => .getb (BitVec.ofNat 16 i.val))

/-- What the host's receive loop issues for one received packet at one tick (R192): load all sixteen bytes, then `RXPKT`. -/
def hostPacket (B : Block) (tick : Word32) : List Instr := ldpkt B ++ [.rxpkt tick]

/-- The commands of a list run one after the other, each to completion (R5, R214). -/
def execAll : List Instr → State → Host.Outcome State Fault Refusal
  | [], s => .next s
  | i :: rest, s =>
    match exec i s with
    | .next s' => execAll rest s'
    | .fault r => .fault r
    | .refused r => .refused r

end Sys2Proof.Machine
end

