-- ==== Sys2Proof/Safety.lean ====
section
/-! DEFINITION. The terms claims use: completion, the invariants of the packet buffer and of the cache, and how a command word is
checked before it runs. -/

namespace Sys2Proof.Machine

/-- The machine goes on: neither a fault nor a refusal (R182). -/
def Completes (o : Host.Outcome State Fault Refusal) : Prop := ∃ s, o = .next s

/-- The packet buffer is in its canonical form (log entry 4). -/
def State.pktCanonical (s : State) : Prop := s.pkt.wf

/-- All ids of the cache are pairwise different (R141). -/
abbrev idsDistinct {w n : Nat} (C : Cache w n) : Prop := ∀ i j : Fin n, C[i].id = C[j].id → i = j

/-- Two slots share an id only where the later one still is a reset record `(0, 0, 0)` (R143 c): for every id but 0 at most one
slot holds it, and of the slots holding 0 at most one, the lowest, differs from `(0, 0, 0)`. -/
abbrev onlyResetRecordsRepeat {w n : Nat} (C : Cache w n) : Prop :=
  ∀ i j : Fin n, i < j → C[i].id = C[j].id → C[j] = BeaconRecord.zero w

/-- Every slot is fresh at the tick (R132). -/
abbrev allFresh {w n : Nat} (cutoff : BitVec w) (C : Cache w n) (t : BitVec w) : Prop :=
  ∀ i : Fin n, stale cutoff C[i] t = false

/-- No slot holds the id. -/
abbrev holdsNot {w n : Nat} (C : Cache w n) (id : Half) : Prop := ∀ i : Fin n, C[i].id ≠ id

/-- Exactly the slot `i` holds the id (R142). -/
abbrev heldOnlyBy {w n : Nat} (C : Cache w n) (id : Half) (i : Fin n) : Prop := ∀ j : Fin n, C[j].id = id ↔ j = i

/-- A presented word with opcode `op` is taken from the port and, by the first line of the command's pseudocode, either refused with
`ERR_OPERAND`, nothing else changed (R184), or run as the command `i` of its fields. -/
def runsAs (op : Byte) (refusedWhen : Word → Prop) (i : Word → Instr) : Prop :=
  ∀ (s : State) (w : Word) (rest : List Word), s.pending = w :: rest → opField w = op →
    (refusedWhen w → step s = .next { s with pending := rest, responses := s.responses ++ [⟨.errOperand, 0#8, 0#16, 0#32⟩] }) ∧
    (¬ refusedWhen w → step s = exec (i w) { s with pending := rest })

/-- The operand conditions under which R61 and R184 refuse a word whose `op` selects a command. -/
def operandsRefused (w : Word) : Prop :=
  let a := aField w
  let h := hField w
  let t := tField w
  (opField w ∈ [0x00#8, 0x11#8, 0x20#8, 0x30#8, 0x40#8] ∧ (a ≠ 0#8 ∨ h ≠ 0#16 ∨ t ≠ 0#32)) ∨
  (opField w = 0x01#8 ∧ (16 ≤ h.toNat ∨ t ≠ 0#32)) ∨
  (opField w = 0x02#8 ∧ (a ≠ 0#8 ∨ 16 ≤ h.toNat ∨ t ≠ 0#32)) ∨
  (opField w = 0x10#8 ∧ (16 < a.toNat ∨ h ≠ 0#16 ∨ t ≠ 0#32)) ∨
  (opField w = 0x50#8 ∧ 2 ^ Config.tickW ≤ t.toNat) ∨
  (opField w = 0x51#8 ∧ (a ≠ 0#8 ∨ Config.capacity ≤ h.toNat ∨ t ≠ 0#32)) ∨
  (opField w = 0x60#8 ∧ (a ≠ 0#8 ∨ h ≠ 0#16 ∨ 2 ^ Config.tickW ≤ t.toNat))

/-- The byte list `A xor B` of R89, for lists of one length. -/
def xorBytes (A B : List Byte) : List Byte := List.zipWith (· ^^^ ·) A B

/-- The list with bit `p % 8` of byte `p / 8` inverted (R91). -/
def flipBit (L : List Byte) (p : Nat) : List Byte := L.modify (p / 8) (· ^^^ (1#8 <<< (p % 8)))

/-- The block with one bit inverted (R91). -/
def flipBlockBit (B : Block) (p : Fin 128) : Block :=
  B.set (p.val / 8) (B[p.val / 8]'(by omega) ^^^ (1#8 <<< (p.val % 8))) (by omega)

end Sys2Proof.Machine
end

