-- ==== Sys2Proof/Certificates/Slice0/Obligations.lean ====
section
/-! DEFINITION. The statements for the provers, each with the rule of spec/ it formalises. A command's response is the last entry of
`responses`, and the word it answers the first of `pending`: that form is the model's (log entries 5 and 6). -/

open Sys2Proof Sys2Proof.Machine

/-! Command words -/

/-- 30_encoding.md (R60, R61): the word of a well-formed command decodes to that command, every operand at every value. -/
def Obligations.DecodeOfEncodeIsTheCommand : Prop :=
  ∀ i : Instr, i.wellFormed = true → decode (encode i) = .command i

/-- R62 "The unit never ignores a field": a word that decodes to a command is that command's word, bit for bit, and the command's
operands are in range. -/
def Obligations.EncodeOfDecodeIsTheWord : Prop :=
  ∀ (w : Word) (i : Instr), decode w = .command i → encode i = w ∧ i.wellFormed = true

/-- R64: the three verdicts in their order, over the masks and extra conditions of the opcode map (R63), and at most one row
matches a word. -/
def Obligations.DecodingFollowsTheOpcodeMap : Prop :=
  ∀ w : Word,
    (opField w ∉ opcodeMap.map OpRow.op → decode w = .noCommand) ∧
    (opField w ∈ opcodeMap.map OpRow.op → inOpcodeMap w = false → decode w = .illFormed) ∧
    (inOpcodeMap w = true → ∃ i, decode w = .command i ∧ i.opcode = opField w ∧ encode i = w) ∧
    (∀ r ∈ opcodeMap, ∀ r' ∈ opcodeMap, w &&& r.mask = r.pattern → w &&& r'.mask = r'.pattern → r = r')

/-- Words written out from the spec's encodings (95_test_vectors.md) decode to the commands they stand for. -/
def Obligations.WrittenWordsDecode : Prop :=
  decode 0x0167000300000000#64 = .command (.putb 3#16 0x67#8) ∧
  decode 0x100E000000000000#64 = .command (.crc 14#8) ∧
  decode 0x2000000000000000#64 = .command .norm ∧
  decode 0x500A000700004E20#64 = .command (.upsert 7#16 10#8 20000#32) ∧
  decode 0x5100000700000000#64 = .command (.rdslot 7#16) ∧
  decode 0x6000000000004E20#64 = .command (.rxpkt 20000#32) ∧
  decode 0x5100000800000000#64 = .illFormed ∧
  decode 0x6100000000000005#64 = .noCommand

/-- R183: a word with a reserved `op` changes no state and answers `0x8000000000000000`. -/
def Obligations.ReservedOpcodeAnswersErrOpcode : Prop :=
  ∀ (s : State) (w : Word) (rest : List Word), s.pending = w :: rest →
    opField w ∉ [0x00#8, 0x01#8, 0x02#8, 0x10#8, 0x11#8, 0x20#8, 0x30#8, 0x40#8, 0x50#8, 0x51#8, 0x60#8] →
    ∃ r : Response, step s = .next { s with pending := rest, responses := s.responses ++ [r] } ∧
      r.word = 0x8000000000000000#64

/-- R184: a word whose `op` selects a command but whose operands fail that command's conditions changes no state and answers
`0x8100000000000000`. -/
def Obligations.OperandErrorAnswersErrOperand : Prop :=
  ∀ (s : State) (w : Word) (rest : List Word), s.pending = w :: rest → operandsRefused w →
    ∃ r : Response, step s = .next { s with pending := rest, responses := s.responses ++ [r] } ∧
      r.word = 0x8100000000000000#64

/-- A command term whose operands are out of range is refused by its own meaning too (first line of every command's pseudocode):
the model's form of R184 for terms, log entry 8. -/
def Obligations.IllFormedCommandIsRefusedByItsMeaning : Prop :=
  ∀ (i : Instr) (s : State), i.wellFormed = false →
    exec i s = .next { s with responses := s.responses ++ [⟨.errOperand, 0#8, 0#16, 0#32⟩] }

/-- R5, R6: a step takes the next presented word and runs the command it decodes to; a word placed as the next to fetch is that
word. The port is the model's (log entries 5 and 8). -/
def Obligations.StepRunsTheDecodedCommand : Prop :=
  (∀ (s : State) (w : Word) (rest : List Word) (i : Instr), s.pending = w :: rest → decode w = .command i →
    step s = exec i { s with pending := rest }) ∧
  (∀ (s : State) (w : Word) (i : Instr), decode w = .command i → step (s.withFetchWord 64 w.toNat) = exec i s)

/-- R197, R201: with no command presented the unit holds its state. That the step is then taken and changes nothing is the model's
choice (log entry 5). -/
def Obligations.UnitHoldsItsStateWithoutCommand : Prop :=
  ∀ s : State, s.pending = [] → step s = .next s

/-! Buffer access -/

/-- R170. -/
def Obligations.NopOnlyAnswersOk : Prop :=
  runsAs 0x00#8 (fun w => aField w ≠ 0#8 ∨ hField w ≠ 0#16 ∨ tField w ≠ 0#32) (fun _ => .nop) ∧
  (∀ w : Word, decode w = .command .nop ↔ w = 0x0000000000000000#64) ∧
  (∀ s : State, ∃ r : Response, exec .nop s = .next { s with responses := s.responses ++ [r] } ∧ r.word = 0x0000000000000000#64)

/-- R171: `PUTB` writes exactly `PKT[idx]`; its frame. -/
def Obligations.PutbStoresExactlyOneByte : Prop :=
  runsAs 0x01#8 (fun w => 16 ≤ (hField w).toNat ∨ tField w ≠ 0#32) (fun w => .putb (hField w) (aField w)) ∧
  ∀ (s : State) (idx : Half) (byte : Byte),
    (idx.toNat < 16 → ∃ u : State, exec (.putb idx byte) s = .next u ∧ u.pkt.read idx.toNat = byte ∧
      (∀ a : Nat, a ≠ idx.toNat → u.pkt.read a = s.pkt.read a) ∧ u.cache = s.cache ∧ u.pending = s.pending ∧
      u.responses = s.responses ++ [⟨.ok, 0#8, 0#16, 0#32⟩]) ∧
    (16 ≤ idx.toNat → exec (.putb idx byte) s = .next { s with responses := s.responses ++ [⟨.errOperand, 0#8, 0#16, 0#32⟩] })

/-- R172: `GETB` answers `PKT[idx]` and changes nothing. -/
def Obligations.GetbAnswersTheByte : Prop :=
  runsAs 0x02#8 (fun w => aField w ≠ 0#8 ∨ 16 ≤ (hField w).toNat ∨ tField w ≠ 0#32) (fun w => .getb (hField w)) ∧
  ∀ (s : State) (idx : Half),
    (idx.toNat < 16 →
      exec (.getb idx) s = .next { s with responses := s.responses ++ [⟨.ok, s.pkt.read idx.toNat, 0#16, 0#32⟩] }) ∧
    (16 ≤ idx.toNat → exec (.getb idx) s = .next { s with responses := s.responses ++ [⟨.errOperand, 0#8, 0#16, 0#32⟩] })

/-- R68: `LDPKT` loads a whole packet and leaves everything else; `RDPKT` answers the sixteen bytes in order and changes nothing. -/
def Obligations.LoadedPacketReadsBack : Prop :=
  ∀ (s : State) (B : Block),
    (∃ u : State, execAll (ldpkt B) s = .next u ∧ u.pkt.block = B ∧ (∀ a : Nat, 16 ≤ a → u.pkt.read a = s.pkt.read a) ∧
      u.cache = s.cache ∧ u.pending = s.pending ∧
      u.responses = s.responses ++ List.replicate 16 ⟨.ok, 0#8, 0#16, 0#32⟩) ∧
    execAll rdpkt s =
      .next { s with responses := s.responses ++ s.pkt.block.toList.map (fun b => ⟨.ok, b, 0#16, 0#32⟩) }

/-! Checksum -/

/-- R85: `CRC len` answers the checksum of the first `len` bytes and changes nothing; 0 for `len` 16 on a block that verifies. -/
def Obligations.CrcAnswersThePrefixChecksum : Prop :=
  runsAs 0x10#8 (fun w => 16 < (aField w).toNat ∨ hField w ≠ 0#16 ∨ tField w ≠ 0#32) (fun w => .crc (aField w)) ∧
  (∀ (s : State) (len : Byte),
    (len.toNat ≤ 16 → exec (.crc len) s = .next { s with responses := s.responses ++
      [⟨.ok, 0#8, checksum ((List.range len.toNat).map s.pkt.read), 0#32⟩] }) ∧
    (16 < len.toNat → exec (.crc len) s = .next { s with responses := s.responses ++ [⟨.errOperand, 0#8, 0#16, 0#32⟩] })) ∧
  (∀ s : State, exec (.crc 0#8) s = .next { s with responses := s.responses ++ [⟨.ok, 0#8, 0xFFFF#16, 0#32⟩] }) ∧
  (∀ s : State, verify s.pkt.block = true →
    exec (.crc 16#8) s = .next { s with responses := s.responses ++ [⟨.ok, 0#8, 0#16, 0#32⟩] })

/-- R86: `CHK` compares the checksum of `PKT[0..13]` with the big-endian field at 14, answers both, and changes nothing. -/
def Obligations.ChkComparesComputedWithCarried : Prop :=
  runsAs 0x11#8 (fun w => aField w ≠ 0#8 ∨ hField w ≠ 0#16 ∨ tField w ≠ 0#32) (fun _ => .chk) ∧
  ∀ s : State,
    let computed := checksum ((List.range 14).map s.pkt.read)
    let carried : Half := ((s.pkt.read 14).setWidth 16 <<< 8) ||| (s.pkt.read 15).setWidth 16
    (computed = carried →
      exec .chk s = .next { s with responses := s.responses ++ [⟨.ok, 0#8, computed, carried.setWidth 32⟩] }) ∧
    (computed ≠ carried →
      exec .chk s = .next { s with responses := s.responses ++ [⟨.crcFail, 0#8, computed, carried.setWidth 32⟩] })

/-- R88: the five steps are the byte-at-a-time form of the polynomial division; the customary check value. -/
def Obligations.CrcStepIsThePolynomialStep : Prop :=
  (∀ (acc : Half) (b : Byte), crcStep acc b = crcBitwise acc b) ∧
  checksum [0x31#8, 0x32#8, 0x33#8, 0x34#8, 0x35#8, 0x36#8, 0x37#8, 0x38#8, 0x39#8] = 0x29B1#16

/-- R89: linearity in both arguments together, the bijection for a fixed byte, and their consequences for lists of one length. -/
def Obligations.ChecksumIsLinear : Prop :=
  (∀ (a1 a2 : Half) (b1 b2 : Byte), crcStep (a1 ^^^ a2) (b1 ^^^ b2) = crcStep a1 b1 ^^^ crcStep a2 b2) ∧
  (∀ b : Byte, Function.Bijective (fun acc : Half => crcStep acc b)) ∧
  crcStep 0#16 0#8 = 0#16 ∧
  (∀ A B : List Byte, A.length = B.length →
    checksum (xorBytes A B) = checksum A ^^^ crcFold 0#16 B ∧
    checksum A ^^^ checksum B ^^^ checksum (xorBytes A B) = checksum (List.replicate A.length 0#8))

/-- R90: appending the checksum, high byte first, leaves residue 0; a block verifies exactly when all sixteen bytes leave 0;
further zero bytes keep 0; low byte first does not work. -/
def Obligations.AppendedChecksumLeavesResidueZero : Prop :=
  (∀ M : List Byte, checksum (M ++ [hi8 (checksum M), lo8 (checksum M)]) = 0#16) ∧
  (∀ B : Block, verify B = true ↔ checksum B.toList = 0#16) ∧
  (∀ k : Nat, crcFold 0#16 (List.replicate k 0#8) = 0#16) ∧
  checksum [0x00#8] = 0xE1F0#16 ∧ checksum [0x00#8, 0xF0#8, 0xE1#8] = 0x3252#16

/-- R91: a single inverted bit always changes the checksum; an error pattern goes undetected exactly when its `crc0` is 0; every
two-bit error of a 16-byte block is detected. -/
def Obligations.SingleAndDoubleBitErrorsAreDetected : Prop :=
  (∀ (L : List Byte) (p : Nat), p < 8 * L.length → checksum (flipBit L p) ≠ checksum L) ∧
  (∀ A E : List Byte, A.length = E.length → (checksum (xorBytes A E) = checksum A ↔ crcFold 0#16 E = 0#16)) ∧
  (∀ (L : List Byte) (p q : Nat), L.length = 16 → p < q → q < 128 → checksum (flipBit (flipBit L p) q) ≠ checksum L)

/-- 40_checksum.md (R87, R91): a block that verifies stops verifying when any one of its 128 bits is inverted. -/
def Obligations.OneInvertedBitFailsVerification : Prop :=
  ∀ (B : Block) (p : Fin 128), verify B = true → verify (flipBlockBit B p) = false

/-! Normalizer -/

/-- R100: the permutation, in both closed forms of the rule. -/
def Obligations.NormalizePermutesWithinGroups : Prop :=
  ∀ (B : Block) (i j : Fin 16), (j.val = (i.val &&& 0xC) ||| (3 - (i.val &&& 3)) ∨ j.val = i.val ^^^ 3) →
    (normalizeBlock B)[i] = B[j]

/-- R101: `NORM` rewrites the sixteen bytes from the old buffer as a whole; its frame. -/
def Obligations.NormReversesEachGroup : Prop :=
  runsAs 0x20#8 (fun w => aField w ≠ 0#8 ∨ hField w ≠ 0#16 ∨ tField w ≠ 0#32) (fun _ => .norm) ∧
  ∀ s : State, ∃ u : State, exec .norm s = .next u ∧
    (∀ g k : Nat, g < 4 → k < 4 → u.pkt.read (4 * g + k) = s.pkt.read (4 * g + (3 - k))) ∧
    (∀ a : Nat, 16 ≤ a → u.pkt.read a = s.pkt.read a) ∧ u.cache = s.cache ∧ u.pending = s.pending ∧
    u.responses = s.responses ++ [⟨.ok, 0#8, 0#16, 0#32⟩]

/-- R102: the normalizer is an involution, hence a bijection, and not idempotent; two `NORM` commands leave `PKT` as it was
(a canonical one also as data, log entry 4). -/
def Obligations.NormalizeIsAnInvolution : Prop :=
  (∀ B : Block, normalizeBlock (normalizeBlock B) = B) ∧
  Function.Bijective normalizeBlock ∧
  (∃ B : Block, normalizeBlock (normalizeBlock B) ≠ normalizeBlock B) ∧
  (∀ s : State, ∃ u : State, execAll [.norm, .norm] s = .next u ∧ (∀ a : Nat, u.pkt.read a = s.pkt.read a) ∧
    (s.pktCanonical → u.pkt = s.pkt))

/-- R104: read as 32-bit words, the normalizer exchanges most-significant-byte-first and least-significant-byte-first and does
not exchange words. -/
def Obligations.NormalizeInvertsWordEndianness : Prop :=
  ∀ (B : Block) (g : Fin 4),
    groupLe (normalizeBlock B) g = B[4 * g.val] ++ B[4 * g.val + 1] ++ B[4 * g.val + 2] ++ B[4 * g.val + 3] ∧
    (normalizeBlock B)[4 * g.val] ++ (normalizeBlock B)[4 * g.val + 1] ++ (normalizeBlock B)[4 * g.val + 2] ++
      (normalizeBlock B)[4 * g.val + 3] = groupLe B g

/-! Cipher -/

/-- R114, for every cipher the configuration may hold (R110 to R112): `DEC` replaces the buffer by `DEC(B)`; its frame; no two
buffers are decrypted to the same one. -/
def Obligations.DecDecryptsTheBuffer : Prop :=
  runsAs 0x30#8 (fun w => aField w ≠ 0#8 ∨ hField w ≠ 0#16 ∨ tField w ≠ 0#32) (fun _ => .dec) ∧
  (∀ s : State, ∃ u : State, exec .dec s = .next u ∧ u.pkt.block = Config.cipher s.pkt.block ∧
    (∀ a : Nat, 16 ≤ a → u.pkt.read a = s.pkt.read a) ∧ u.cache = s.cache ∧ u.pending = s.pending ∧
    u.responses = s.responses ++ [⟨.ok, 0#8, 0#16, 0#32⟩]) ∧
  (∀ s s' u u' : State, exec .dec s = .next u → exec .dec s' = .next u' → u.pkt.block = u'.pkt.block →
    s.pkt.block = s'.pkt.block)

/-- R115: each stand-in is a bijection with the stated inverse, and `SUB32LE_K` does not commute with the normalizer. -/
def Obligations.StandInsAreBijections : Prop :=
  (∀ (c : StandIn) (B : Block), c.dec (c.enc B) = B ∧ c.enc (c.dec B) = B) ∧
  (∃ B : Block, normalizeBlock (StandIn.sub32leK.dec (normalizeBlock B)) ≠ StandIn.sub32leK.dec B)

/-! Dispatcher -/

/-- R122 over R120 and R121, for every admissible layout: what `DISP` answers, byte by byte of the buffer; nothing changes. -/
def Obligations.DispAnswersTheNormalizedObservation : Prop :=
  runsAs 0x40#8 (fun w => aField w ≠ 0#8 ∨ hField w ≠ 0#16 ∨ tField w ≠ 0#32) (fun _ => .disp) ∧
  ∀ s : State,
    let L := Config.layout
    let proto := s.pkt.read L.offProto.val
    let oid : Half := ((s.pkt.read L.offOid.val).setWidth 16 <<< 8) ||| (s.pkt.read (L.offOid.val + 1)).setWidth 16
    let strength := if proto = L.protoProxReport ∨ proto = L.protoProxReportExt then 3#8 else s.pkt.read L.offStrength.val
    exec .disp s = .next { s with responses := s.responses ++ [⟨.ok, strength, oid, proto.setWidth 32⟩] }

/-- R125: proximity reports always get strength 3; every other variant keeps the raw byte. -/
def Obligations.ProximityReportsGetStrengthThree : Prop :=
  ∀ (L : Layout) (B : Block),
    (B[L.offProto.val] = L.protoProxReport ∨ B[L.offProto.val] = L.protoProxReportExt →
      (dispatch L B).trackerStrength = 3#8) ∧
    (B[L.offProto.val] ≠ L.protoProxReport → B[L.offProto.val] ≠ L.protoProxReportExt →
      (dispatch L B).trackerStrength = B[L.offStrength.val]) ∧
    (B[L.offProto.val] = L.protoTagTracker → (dispatch L B).trackerStrength = B[L.offStrength.val])

/-! Beacon cache -/

/-- R133: the three phases, for every capacity, tick width and cutoff. -/
def Obligations.UpsertFollowsTheThreePhases : Prop :=
  ∀ (w n : Nat) (cutoff : BitVec w) (C : Cache w n) (id : Half) (s : Byte) (t : BitVec w),
    let thr := (t.toNat + 2 ^ w - cutoff.toNat) % 2 ^ w
    (∀ i : Fin n, C[i].id = id → (∀ j : Fin n, j < i → C[j].id ≠ id) →
      (s.toNat ≤ C[i].strength.toNat ∨ C[i].lastSeenTick.toNat < thr →
        upsert cutoff C id s t = (C.set i ⟨id, s, t⟩, .slot i)) ∧
      (C[i].strength.toNat < s.toNat → thr ≤ C[i].lastSeenTick.toNat → upsert cutoff C id s t = (C, .slot i))) ∧
    ((∀ j : Fin n, C[j].id ≠ id) →
      (∀ i : Fin n, C[i].lastSeenTick.toNat < thr → (∀ j : Fin n, j < i → thr ≤ C[j].lastSeenTick.toNat) →
        upsert cutoff C id s t = (C.set i ⟨id, s, t⟩, .slot i)) ∧
      ((∀ j : Fin n, thr ≤ C[j].lastSeenTick.toNat) → upsert cutoff C id s t = (C, .cacheFull)))

/-- R135: `UPSERT` puts `upsert` of its operands into the cache, answers the slot or `CACHE_FULL`, and touches nothing else. With
`TICK_W` 32 no `UPSERT` word meets the refusing clause (R61). -/
def Obligations.UpsertCommandUpdatesTheCache : Prop :=
  runsAs 0x50#8 (fun w => 2 ^ Config.tickW ≤ (tField w).toNat) (fun w => .upsert (hField w) (aField w) (tField w)) ∧
  ∀ (s : State) (id : Half) (strength : Byte) (tick : Word32),
    (∀ (C : Cache Config.tickW Config.capacity) (i : Fin Config.capacity),
      upsert (BitVec.ofNat Config.tickW 8096) s.cache id strength tick = (C, .slot i) →
      exec (.upsert id strength tick) s =
        .next { s with cache := C, responses := s.responses ++ [⟨.ok, 0#8, 0#16, BitVec.ofNat 32 i.val⟩] }) ∧
    (∀ C : Cache Config.tickW Config.capacity,
      upsert (BitVec.ofNat Config.tickW 8096) s.cache id strength tick = (C, .cacheFull) →
      exec (.upsert id strength tick) s = .next { s with responses := s.responses ++ [⟨.cacheFull, 0#8, 0#16, 0#32⟩] })

/-- R145: `RDSLOT` answers the three fields of the slot and changes nothing. -/
def Obligations.RdslotAnswersTheRecord : Prop :=
  runsAs 0x51#8 (fun w => aField w ≠ 0#8 ∨ tField w ≠ 0#32 ∨ Config.capacity ≤ (hField w).toNat) (fun w => .rdslot (hField w)) ∧
  ∀ (s : State) (idx : Half),
    (∀ i : Fin Config.capacity, i.val = idx.toNat → exec (.rdslot idx) s = .next { s with responses := s.responses ++
      [⟨.ok, s.cache[i].strength, s.cache[i].id, s.cache[i].lastSeenTick.setWidth 32⟩] }) ∧
    (Config.capacity ≤ idx.toNat →
      exec (.rdslot idx) s = .next { s with responses := s.responses ++ [⟨.errOperand, 0#8, 0#16, 0#32⟩] })

/-- R139: the three regimes of freshness, and where the predicate differs from "age greater than `CUTOFF`". -/
def Obligations.StalenessHasThreeRegimes : Prop :=
  ∀ (w : Nat) (cutoff : BitVec w) (r : BeaconRecord w) (t : BitVec w),
    let N := 2 ^ w
    let C := cutoff.toNat
    let L := r.lastSeenTick.toNat
    (C ≤ t.toNat → L ≤ t.toNat → (stale cutoff r t = false ↔ t.toNat - L ≤ C)) ∧
    (C ≤ t.toNat → t.toNat < L → stale cutoff r t = false) ∧
    (t.toNat < C → (stale cutoff r t = false ↔ N - C + t.toNat ≤ L)) ∧
    ((stale cutoff r t = true ↔ C < (t.toNat + N - L) % N) ↔
      ¬ (C ≤ t.toNat ∧ t.toNat < L) ∧ ¬ (L ≤ t.toNat ∧ t.toNat < C))

/-- R140: one `upsert` changes at most the slot it returns, and how; `UPSERT` never touches `PKT`. -/
def Obligations.UpsertChangesAtMostTheReturnedSlot : Prop :=
  (∀ (w n : Nat) (cutoff : BitVec w) (C : Cache w n) (id : Half) (s : Byte) (t : BitVec w),
    let C' := (upsert cutoff C id s t).1
    (∀ i : Fin n, (upsert cutoff C id s t).2 = .slot i →
      (∀ j : Fin n, j ≠ i → C'[j] = C[j]) ∧
      ((∃ j : Fin n, C[j].id = id) → C'[i].id = C[i].id ∧ C[i].id = id ∧ (C'[i] = C[i] ∨ C'[i] = ⟨id, s, t⟩)) ∧
      ((∀ j : Fin n, C[j].id ≠ id) → C'[i] = ⟨id, s, t⟩)) ∧
    ((upsert cutoff C id s t).2 = .cacheFull → C' = C)) ∧
  (∀ (s : State) (id : Half) (strength : Byte) (tick : Word32),
    ∃ u : State, exec (.upsert id strength tick) s = .next u ∧ u.pkt = s.pkt)

/-- R141: how often an id occurs after an `upsert`; pairwise different ids stay pairwise different. -/
def Obligations.UpsertKeepsIdsUnique : Prop :=
  ∀ (w n : Nat) (cutoff : BitVec w) (C : Cache w n) (id : Half) (s : Byte) (t : BitVec w),
    let C' := (upsert cutoff C id s t).1
    (∀ v : Half, v ≠ id → idCount C' v ≤ idCount C v) ∧
    ((upsert cutoff C id s t).2 ≠ .cacheFull → idCount C' id = max (idCount C id) 1) ∧
    ((upsert cutoff C id s t).2 = .cacheFull → idCount C' id = 0 ∧ idCount C id = 0) ∧
    (idsDistinct C → idsDistinct C')

/-- R142: damping, equal strength, staleness override and its boundary, capacity boundary, slot reuse. A `CUTOFF` of at least 1 is
assumed where "T + 1 is within the cutoff" needs it (this machine's is 8096); no tick used wraps. -/
def Obligations.CachePropertiesOfTheSource : Prop :=
  (∀ (w n : Nat) (cutoff : BitVec w) (C : Cache w n) (i : Fin n) (x : Half) (T : BitVec w),
    0 < cutoff.toNat → cutoff.toNat ≤ T.toNat + 1 → heldOnlyBy C x i →
    (C[i] = ⟨x, 10#8, T⟩ → T.toNat + 1 < 2 ^ w →
      upsert cutoff C x 5#8 (T + 1#w) = (C.set i ⟨x, 5#8, T + 1#w⟩, .slot i) ∧
      upsert cutoff C x 15#8 (T + 1#w) = (C, .slot i) ∧
      upsert cutoff C x 10#8 (T + 1#w) = (C.set i ⟨x, 10#8, T + 1#w⟩, .slot i)) ∧
    (∀ s0 s : Byte, C[i] = ⟨x, s0, T⟩ →
      (T.toNat + cutoff.toNat + 1 < 2 ^ w →
        upsert cutoff C x s (T + cutoff + 1#w) = (C.set i ⟨x, s, T + cutoff + 1#w⟩, .slot i)) ∧
      (T.toNat + cutoff.toNat < 2 ^ w →
        (s.toNat ≤ s0.toNat → upsert cutoff C x s (T + cutoff) = (C.set i ⟨x, s, T + cutoff⟩, .slot i)) ∧
        (s0.toNat < s.toNat → upsert cutoff C x s (T + cutoff) = (C, .slot i))))) ∧
  (∀ (w n : Nat) (cutoff : BitVec w) (C : Cache w n) (y : Half) (s : Byte) (t : BitVec w), holdsNot C y →
    (allFresh cutoff C t → upsert cutoff C y s t = (C, .cacheFull)) ∧
    (∀ j : Fin n, stale cutoff C[j] t = true → (∀ k : Fin n, k < j → stale cutoff C[k] t = false) →
      upsert cutoff C y s t = (C.set j ⟨y, s, t⟩, .slot j)))

/-- R143 (a) and (b): what `UPSERT` does on a freshly reset cache at every tick, `CUTOFF` included, tag id 0 included. -/
def Obligations.FreshlyResetCacheAtEveryTick : Prop :=
  ∀ (s : State) (id : Half) (strength : Byte) (tick : Word32), s.cache = State.reset.cache →
    (tick.toNat ≠ 8096 → exec (.upsert id strength tick) s =
      .next { s with cache := s.cache.set 0 ⟨id, strength, tick⟩, responses := s.responses ++ [⟨.ok, 0#8, 0#16, 0#32⟩] }) ∧
    (tick.toNat = 8096 → id ≠ 0#16 →
      exec (.upsert id strength tick) s = .next { s with responses := s.responses ++ [⟨.cacheFull, 0#8, 0#16, 0#32⟩] }) ∧
    (tick.toNat = 8096 → id = 0#16 → strength ≠ 0#8 →
      exec (.upsert id strength tick) s = .next { s with responses := s.responses ++ [⟨.ok, 0#8, 0#16, 0#32⟩] }) ∧
    (tick.toNat = 8096 → id = 0#16 → strength = 0#8 →
      exec (.upsert id strength tick) s =
        .next { s with cache := s.cache.set 0 ⟨0#16, 0#8, tick⟩, responses := s.responses ++ [⟨.ok, 0#8, 0#16, 0#32⟩] })

/-- R208: while the tick is below `CUTOFF` and no stored tick exceeds it, a matching record is always overwritten, a new tag always
lands in slot 0, and `CACHE_FULL` does not occur; so a cache that holds one tag, every slot but slot 0 still a reset record, holds
one tag again, the observed one (its id is not 0: an observation of id 0 matches a reset record, R143 b). -/
def Obligations.FirstTicksOfAnEpochKeepOneTag : Prop :=
  ∀ (w n : Nat) (cutoff : BitVec w) (C : Cache w n) (id : Half) (s : Byte) (t : BitVec w), 0 < n →
    t.toNat < cutoff.toNat → (∀ i : Fin n, C[i].lastSeenTick.toNat ≤ t.toNat) →
    (∀ i : Fin n, C[i].id = id → (∀ j : Fin n, j < i → C[j].id ≠ id) →
      upsert cutoff C id s t = (C.set i ⟨id, s, t⟩, .slot i)) ∧
    (∀ i : Fin n, i.val = 0 → holdsNot C id → upsert cutoff C id s t = (C.set i ⟨id, s, t⟩, .slot i)) ∧
    (upsert cutoff C id s t).2 ≠ .cacheFull ∧
    (id ≠ 0#16 → (∀ j : Fin n, j.val ≠ 0 → C[j] = BeaconRecord.zero w) →
      (∀ i : Fin n, i.val = 0 → (upsert cutoff C id s t).1[i] = ⟨id, s, t⟩ ∧ (upsert cutoff C id s t).2 = .slot i) ∧
      (∀ j : Fin n, j.val ≠ 0 → (upsert cutoff C id s t).1[j] = BeaconRecord.zero w))

/-- R209 (b), R210: a record "from the future" is never reused and its tag's strength can only move downward; a cache full of such
records answers `CACHE_FULL` to every new tag. -/
def Obligations.RecordsFromTheFutureArePinned : Prop :=
  ∀ (w n : Nat) (cutoff : BitVec w) (C : Cache w n) (i : Fin n) (id : Half) (s : Byte) (t : BitVec w),
    cutoff.toNat ≤ t.toNat → t.toNat < C[i].lastSeenTick.toNat →
    (C[i].id ≠ id → (upsert cutoff C id s t).1[i] = C[i]) ∧
    ((upsert cutoff C id s t).1[i] = C[i] ∨ (upsert cutoff C id s t).1[i].strength.toNat ≤ C[i].strength.toNat) ∧
    ((∀ j : Fin n, t.toNat < C[j].lastSeenTick.toNat) → holdsNot C id → (upsert cutoff C id s t).2 = .cacheFull)

/-- R26, R143 (c), 90_conflicts.md C6: in a cache where only reset records repeat an id, no two records fresh at a tick other than
`CUTOFF` share an id. -/
def Obligations.NoTwoLiveRecordsShareAnId : Prop :=
  ∀ (C : Cache Config.tickW Config.capacity) (t : Tick), onlyResetRecordsRepeat C → t ≠ cutoffTick →
    ∀ i j : Fin Config.capacity, stale cutoffTick C[i] t = false → stale cutoffTick C[j] t = false →
      C[i].id = C[j].id → i = j

/-! Pipeline -/

/-- R160, for every cipher and every admissible layout: what `RXPKT` leaves in the buffer, in the cache and in the response. -/
def Obligations.RxpktRunsThePipeline : Prop :=
  runsAs 0x60#8 (fun w => aField w ≠ 0#8 ∨ hField w ≠ 0#16 ∨ 2 ^ Config.tickW ≤ (tField w).toNat) (fun w => .rxpkt (tField w)) ∧
  ∀ (s : State) (tick : Word32),
    let B := normalizeBlock (Config.cipher (normalizeBlock s.pkt.block))
    let computed := checksum (B.toList.take 14)
    let carried : Half := (B[14].setWidth 16 <<< 8) ||| B[15].setWidth 16
    let o := dispatch Config.layout B
    ∃ u : State, exec (.rxpkt tick) s = .next u ∧ u.pkt.block = B ∧
      (∀ a : Nat, 16 ≤ a → u.pkt.read a = s.pkt.read a) ∧ u.pending = s.pending ∧
      (computed ≠ carried → u.cache = s.cache ∧
        u.responses = s.responses ++ [⟨.crcFail, 0#8, computed, carried.setWidth 32⟩]) ∧
      (computed = carried → ∀ (C : Cache Config.tickW Config.capacity) (res : UpsertResult Config.capacity),
        upsert (BitVec.ofNat Config.tickW 8096) s.cache o.oid o.trackerStrength tick = (C, res) →
        (∀ i, res = .slot i → u.cache = C ∧
          u.responses = s.responses ++ [⟨.ok, o.trackerStrength, o.oid, BitVec.ofNat 32 i.val⟩]) ∧
        (res = .cacheFull → u.cache = s.cache ∧
          u.responses = s.responses ++ [⟨.cacheFull, o.trackerStrength, o.oid, 0#32⟩]))

/-- R162: `RXPKT` leaves the same `PKT` and `CACHE` as `NORM`, `DEC`, `NORM`, `CHK` and, only if `CHK` answered `OK`, `DISP` and
`UPSERT`; its status and result fields are those the rule names. That canonical buffers end equal and
not only alike byte for byte is about the model's own representation (log entry 4). -/
def Obligations.RxpktEqualsTheCommandSequence : Prop :=
  ∀ (s : State) (tick : Word32), ∃ (u v : State) (rx rc : Response),
    exec (.rxpkt tick) s = .next u ∧ u.responses = s.responses ++ [rx] ∧
    execAll (decodePseudo ++ [.chk]) s = .next v ∧ v.responses.getLast? = some rc ∧
    (rc.status ≠ .ok → rc.status = .crcFail ∧ u.pkt.block = v.pkt.block ∧ (s.pktCanonical → u.pkt = v.pkt) ∧
      u.cache = v.cache ∧ rx = rc) ∧
    (rc.status = .ok → ∃ (d e : State) (rd ru : Response),
      exec .disp v = .next d ∧ d.responses.getLast? = some rd ∧
      exec (.upsert rd.h rd.a tick) d = .next e ∧ e.responses.getLast? = some ru ∧
      u.pkt.block = e.pkt.block ∧ (s.pktCanonical → u.pkt = e.pkt) ∧ u.cache = e.cache ∧
      rx.status = ru.status ∧ (ru.status = .ok → rx.t = ru.t))

/-- R165: the inverse pipeline builds a wire packet that the transforms turn back, and sealing a block makes it verify; so `RXPKT`
on such a packet never answers `CRC_FAIL`, and on a freshly reset cache at a tick other than `CUTOFF` slot 0 holds the observation. -/
def Obligations.WirePacketOfASealedBlockIsAccepted : Prop :=
  (∀ P : Block, plaintextOf Config.cipher (wirePacketOf Config.cipher.symm P) = P) ∧
  (∀ B : Block, verify (sealBlock B) = true) ∧
  ∀ (s : State) (B : Block) (tick : Word32), s.pkt.block = wirePacketOf Config.cipher.symm (sealBlock B) →
    ∃ (u : State) (r : Response), exec (.rxpkt tick) s = .next u ∧ u.pkt.block = sealBlock B ∧
      u.responses = s.responses ++ [r] ∧ (r.status = .ok ∨ r.status = .cacheFull) ∧
      r.h = (dispatch Config.layout B).oid ∧ r.a = (dispatch Config.layout B).trackerStrength ∧
      (s.cache = State.reset.cache → tick.toNat ≠ 8096 → r.status = .ok ∧ r.t = 0#32 ∧
        u.cache = s.cache.set 0 ⟨(dispatch Config.layout B).oid, (dispatch Config.layout B).trackerStrength, tick⟩)

/-- R207, R192: when the host loads all sixteen bytes before `RXPKT`, the outcome does not depend on what the buffer held. -/
def Obligations.LoadedPacketIgnoresTheOldBuffer : Prop :=
  ∀ (s : State) (m : Memory) (B : Block) (tick : Word32), ∃ u u' : State,
    execAll (hostPacket B tick) s = .next u ∧ execAll (hostPacket B tick) (s.withPkt m) = .next u' ∧
    u'.pkt.block = u.pkt.block ∧ u.pkt.block = plaintextOf Config.cipher B ∧ u'.cache = u.cache ∧ u'.responses = u.responses

/-- R124, R187: a packet that verifies and whose variant is none of the three named ones is accepted like any other: `upsert` of its
id, the raw strength byte and the tick, answered by the slot or `CACHE_FULL`. -/
def Obligations.UnrecognizedVariantIsAccepted : Prop :=
  ∀ (s : State) (tick : Word32),
    let L := Config.layout
    let B := plaintextOf Config.cipher s.pkt.block
    verify B = true → B[L.offProto.val] ∉ [L.protoTagTracker, L.protoProxReport, L.protoProxReportExt] →
    ∃ (u : State) (r : Response), exec (.rxpkt tick) s = .next u ∧ u.pkt.block = B ∧ u.responses = s.responses ++ [r] ∧
      r.h = (dispatch L B).oid ∧ r.a = B[L.offStrength.val] ∧ u.cache = (upsert cutoffTick s.cache r.h r.a tick).1 ∧
      (∀ i : Fin Config.capacity, (upsert cutoffTick s.cache r.h r.a tick).2 = .slot i →
        r.status = .ok ∧ r.t = BitVec.ofNat 32 i.val) ∧
      ((upsert cutoffTick s.cache r.h r.a tick).2 = .cacheFull → r.status = .cacheFull ∧ r.t = 0#32 ∧ u.cache = s.cache)

/-! The whole machine -/

/-- R182, R180, R5: no step faults or refuses; a step with a command presented takes exactly one word and gives exactly one
response. The form (one word off `pending`, one response onto `responses`) is the model's, log entries 5 and 6. -/
def Obligations.EveryCommandIsAnsweredOnce : Prop :=
  (∀ s : State, Completes (step s)) ∧
  (∀ (s : State) (w : Word) (rest : List Word), s.pending = w :: rest →
    ∃ (u : State) (r : Response), step s = .next u ∧ u.pending = rest ∧ u.responses = s.responses ++ [r])

/-- R214: a run is a list of command words applied in order; it ends when the list is exhausted, each word answered once. -/
def Obligations.RunAnswersEveryWord : Prop :=
  ∀ s : State, ∃ (u : State) (rs : List Response), Sys2Proof.core.run s.pending.length s = .next u ∧ u.pending = [] ∧
    u.responses = s.responses ++ rs ∧ rs.length = s.pending.length

/-- R181, R188: which command words each status can answer, what the error responses carry, and the five codes. -/
def Obligations.StatusesComeFromTheirCommands : Prop :=
  (∀ (s u : State) (w : Word) (rest : List Word) (r : Response), s.pending = w :: rest → step s = .next u →
    u.responses = s.responses ++ [r] →
    (r.status = .crcFail → opField w = 0x11#8 ∨ opField w = 0x60#8) ∧
    (r.status = .cacheFull → (opField w = 0x50#8 ∧ r.a = 0#8 ∧ r.h = 0#16 ∧ r.t = 0#32) ∨ (opField w = 0x60#8 ∧ r.t = 0#32)) ∧
    (r.status = .errOpcode ↔ decode w = .noCommand) ∧
    (r.status = .errOperand ↔ decode w = .illFormed) ∧
    (r.status = .errOpcode ∨ r.status = .errOperand → r.a = 0#8 ∧ r.h = 0#16 ∧ r.t = 0#32 ∧ u.pkt = s.pkt ∧ u.cache = s.cache)) ∧
  Status.ok.code = 0x00#8 ∧ Status.crcFail.code = 0x01#8 ∧ Status.cacheFull.code = 0x02#8 ∧
  Status.errOpcode.code = 0x80#8 ∧ Status.errOperand.code = 0x81#8

/-- R180: the response word in its four fields, and no two responses share a word. -/
def Obligations.ResponseWordCarriesTheFields : Prop :=
  (∀ r : Response, r.word = (r.status.code.setWidth 64 <<< 56) ||| (r.a.setWidth 64 <<< 48) ||| (r.h.setWidth 64 <<< 32) |||
    r.t.setWidth 64) ∧
  Function.Injective Response.word

/-- R24, R144: a step that changes the cache ran `UPSERT` or `RXPKT` and answered `OK`; it wrote the slot whose index it answered,
with the tick of the command word, and no other slot. -/
def Obligations.OnlyUpsertAndRxpktWriteTheCache : Prop :=
  ∀ s u : State, step s = .next u → u.cache ≠ s.cache →
    ∃ (w : Word) (rest : List Word) (r : Response) (i : Fin Config.capacity),
      s.pending = w :: rest ∧ (opField w = 0x50#8 ∨ opField w = 0x60#8) ∧ u.responses = s.responses ++ [r] ∧ r.status = .ok ∧
      r.t = BitVec.ofNat 32 i.val ∧ u.cache[i].lastSeenTick = tField w ∧
      (∀ j : Fin Config.capacity, BitVec.ofNat 32 j.val ≠ r.t → u.cache[j] = s.cache[j])

/-- R20, R173: a step that changes a byte of the packet buffer ran `PUTB`, `NORM`, `DEC` or `RXPKT`, and the byte is one of the
sixteen. -/
def Obligations.OnlyFourCommandsWriteThePacket : Prop :=
  ∀ (s u : State) (a : Nat), step s = .next u → u.pkt.read a ≠ s.pkt.read a →
    a < 16 ∧ ∃ (w : Word) (rest : List Word), s.pending = w :: rest ∧ opField w ∈ [0x01#8, 0x20#8, 0x30#8, 0x60#8]

/-- R20: `UPSERT` and `RDSLOT` neither read nor write `PKT`: with another buffer they do and answer the same. -/
def Obligations.CacheCommandsIgnoreThePacket : Prop :=
  ∀ (i : Instr) (s : State) (m : Memory),
    ((∃ id st t, i = .upsert id st t) ∨ (∃ idx, i = .rdslot idx)) →
    ∃ u : State, exec i s = .next u ∧ u.pkt = s.pkt ∧ exec i (s.withPkt m) = .next (u.withPkt m)

/-- R24: apart from `UPSERT`, `RXPKT` and `RDSLOT` no command reads or writes `CACHE`: with another cache it does and answers the
same. -/
def Obligations.PacketCommandsIgnoreTheCache : Prop :=
  ∀ (i : Instr) (s : State) (C : Cache Config.tickW Config.capacity), i.opcode ∉ [0x50#8, 0x51#8, 0x60#8] →
    ∃ u : State, exec i s = .next u ∧ u.cache = s.cache ∧ exec i (s.withCache C) = .next (u.withCache C)

/-- R50: `GETB`, `RDSLOT`, `CRC`, `CHK`, `DISP` (and `NOP`) change no state and can be repeated with the same result; `PUTB` is
idempotent. -/
def Obligations.ReadsRepeatAndPutbIsIdempotent : Prop :=
  (∀ (i : Instr) (s : State), i.opcode ∈ [0x00#8, 0x02#8, 0x51#8, 0x10#8, 0x11#8, 0x40#8] →
    ∃ r : Response, exec i s = .next (s.answer r) ∧ exec i (s.answer r) = .next ((s.answer r).answer r)) ∧
  (∀ (s : State) (idx : Half) (byte : Byte), ∃ u v : State, exec (.putb idx byte) s = .next u ∧
    exec (.putb idx byte) u = .next v ∧ ∀ a : Nat, v.pkt.read a = u.pkt.read a)

/-! Reset and invariants -/

/-- R33, R201: after reset every byte of `PKT` is 0 and every slot is `(0, 0, 0)`. -/
def Obligations.ResetClearsPacketAndCache : Prop :=
  (∀ a : Nat, State.reset.pkt.read a = 0x00#8) ∧
  (∀ i : Fin Config.capacity, State.reset.cache[i].id = 0#16 ∧ State.reset.cache[i].strength = 0#8 ∧
    State.reset.cache[i].lastSeenTick = 0#Config.tickW)

/-- R33, R143: the reset state meets both invariants kept below; that the packet buffer is canonical is about the model's own
representation (log entry 4). -/
def Obligations.ResetMeetsTheInvariants : Prop :=
  State.reset.pktCanonical ∧ onlyResetRecordsRepeat State.reset.cache

/-- Every step keeps the packet buffer in its canonical form (log entry 4): no byte outside 0..15 is ever stored (R48). -/
def Obligations.StepKeepsThePacketCanonical : Prop :=
  ∀ s u : State, s.pktCanonical → step s = .next u → u.pktCanonical

/-- R143 (c): from every state in which only reset records repeat an id, every step leaves such a state. -/
def Obligations.StepKeepsOnlyResetRecordsRepeating : Prop :=
  ∀ s u : State, onlyResetRecordsRepeat s.cache → step s = .next u → onlyResetRecordsRepeat u.cache

/-- R141 for the machine: pairwise different ids stay pairwise different under every step, stale slots included. -/
def Obligations.StepKeepsIdsDistinct : Prop :=
  ∀ s u : State, idsDistinct s.cache → step s = .next u → idsDistinct u.cache

/-! The configuration record -/

/-- R6, R7: a step of this machine on a presented word is the total function `step` of R6 under this hardware's configuration record,
whose values are those of R7; the port around it is the model's (log entries 5 and 6). -/
def Obligations.MachineIsTheUnitAtItsConfiguration : Prop :=
  (∀ (s : State) (w : Word) (rest : List Word) (u : UnitState Config.record) (r : Response), s.pending = w :: rest →
    unitStep Config.record ⟨s.pkt, s.cache⟩ w = (u, r) → step s = .next ⟨u.pkt, u.cache, rest, s.responses ++ [r]⟩) ∧
  Config.record.capacity = 8 ∧ Config.record.cutoff = 8096 ∧ Config.record.tickW = 32

/-- R7, R9, over every configuration: decoding takes back what encoding writes, `RDSLOT` is refused from the configuration's capacity
on and answers below it, and `UPSERT` and `RXPKT` are refused from the configuration's `2^TICK_W` on and below it do what R135 and
R160 say with its capacity, cutoff, tick width, layout and cipher. -/
def Obligations.EveryConfigurationsUnit : Prop :=
  ∀ (c : Configuration) (u : UnitState c),
    let refused : UnitState c × Response := (u, ⟨.errOperand, 0#8, 0#16, 0#32⟩)
    (∀ i : Instr, i.wellFormedFor c = true → decodeFor c (encode i) = .command i ∧ unitStep c u (encode i) = u.command i) ∧
    (∀ h : Half, (c.capacity ≤ h.toNat → unitStep c u (encode (.rdslot h)) = refused) ∧
      (∀ i : Fin c.capacity, i.val = h.toNat → unitStep c u (encode (.rdslot h)) =
        (u, ⟨.ok, u.cache[i].strength, u.cache[i].id, u.cache[i].lastSeenTick.setWidth 32⟩))) ∧
    (∀ (h : Half) (a : Byte) (t : Word32),
      (2 ^ c.tickW ≤ t.toNat → unitStep c u (encode (.upsert h a t)) = refused) ∧
      (t.toNat < 2 ^ c.tickW → ∀ (C : Cache c.tickW c.capacity) (res : UpsertResult c.capacity),
        upsert (BitVec.ofNat c.tickW c.cutoff) u.cache h a (BitVec.ofNat c.tickW t.toNat) = (C, res) →
        (∀ i, res = .slot i → unitStep c u (encode (.upsert h a t)) = (⟨u.pkt, C⟩, ⟨.ok, 0#8, 0#16, BitVec.ofNat 32 i.val⟩)) ∧
        (res = .cacheFull → unitStep c u (encode (.upsert h a t)) = (u, ⟨.cacheFull, 0#8, 0#16, 0#32⟩)))) ∧
    (∀ t : Word32,
      let B := normalizeBlock (c.cipher (normalizeBlock u.pkt.block))
      let o := dispatch c.layout B
      let computed := checksum (B.toList.take 14)
      let carried : Half := (B[14].setWidth 16 <<< 8) ||| B[15].setWidth 16
      (2 ^ c.tickW ≤ t.toNat → unitStep c u (encode (.rxpkt t)) = refused) ∧
      (t.toNat < 2 ^ c.tickW → ∃ (v : UnitState c) (r : Response), unitStep c u (encode (.rxpkt t)) = (v, r) ∧ v.pkt.block = B ∧
        (∀ x : Nat, 16 ≤ x → v.pkt.read x = u.pkt.read x) ∧
        (computed ≠ carried → v.cache = u.cache ∧ r = ⟨.crcFail, 0#8, computed, carried.setWidth 32⟩) ∧
        (computed = carried → ∀ (C : Cache c.tickW c.capacity) (res : UpsertResult c.capacity),
          upsert (BitVec.ofNat c.tickW c.cutoff) u.cache o.oid o.trackerStrength (BitVec.ofNat c.tickW t.toNat) = (C, res) →
          (∀ i, res = .slot i → v.cache = C ∧ r = ⟨.ok, o.trackerStrength, o.oid, BitVec.ofNat 32 i.val⟩) ∧
          (res = .cacheFull → v.cache = u.cache ∧ r = ⟨.cacheFull, o.trackerStrength, o.oid, 0#32⟩))))
end

