-- ==== Sys2Proof/Laws/Cache.lean ====
section
/-! SUPPORT. What a scan and an `upsert` can answer, said once. -/

namespace Sys2Proof.Machine

variable {w n : Nat}

/-- A scan that stops at `i`: `i` satisfies the condition and no lower slot does. -/
theorem firstSlot_some {p : BeaconRecord w → Bool} {C : Cache w n} {i : Fin n} (h : firstSlot p C = some i) :
    p C[i] = true ∧ ∀ j : Fin n, j < i → p C[j] = false := by
  have key : ∀ l : List (Fin n), l.Pairwise (· < ·) →
      l.find? (fun i => p C[i]) = some i → p C[i] = true ∧ ∀ j ∈ l, j < i → p C[j] = false := by
    intro l hl hf
    induction l with
    | nil => simp at hf
    | cons x l ih =>
      obtain ⟨hx, hl⟩ := List.pairwise_cons.1 hl
      rw [List.find?_cons] at hf
      cases hp : p C[x] with
      | true =>
        simp only [hp] at hf
        obtain rfl : x = i := by simpa using hf
        refine ⟨hp, fun j hj hji => ?_⟩
        rcases List.mem_cons.1 hj with rfl | hj
        · exact absurd hji (lt_irrefl _)
        · exact absurd (hx j hj) (not_lt.2 hji.le)
      | false =>
        simp only [hp] at hf
        obtain ⟨h1, h2⟩ := ih hl hf
        refine ⟨h1, fun j hj hji => ?_⟩
        rcases List.mem_cons.1 hj with rfl | hj
        · exact hp
        · exact h2 j hj hji
  obtain ⟨h1, h2⟩ := key (List.finRange n) (List.pairwise_lt_finRange n) h
  exact ⟨h1, fun j => h2 j (List.mem_finRange j)⟩

/-- A scan that finds nothing: no slot satisfies the condition. -/
theorem firstSlot_none {p : BeaconRecord w → Bool} {C : Cache w n} (h : firstSlot p C = none) (i : Fin n) : p C[i] = false := by
  have := List.find?_eq_none.1 h i (List.mem_finRange i)
  simpa using this

/-- All that `upsert` can do (R133): a match overwritten, a match kept, a stale slot taken, or nothing. -/
theorem upsert_cases (cutoff : BitVec w) (C : Cache w n) (id : Half) (s : Byte) (t : BitVec w) :
    (∃ i : Fin n, C[i].id = id ∧ (∀ j : Fin n, j < i → C[j].id ≠ id) ∧ overwrites cutoff C[i] s t = true ∧
      upsert cutoff C id s t = (C.set i ⟨id, s, t⟩, .slot i)) ∨
    (∃ i : Fin n, C[i].id = id ∧ (∀ j : Fin n, j < i → C[j].id ≠ id) ∧ overwrites cutoff C[i] s t = false ∧
      upsert cutoff C id s t = (C, .slot i)) ∨
    (∃ i : Fin n, (∀ j : Fin n, C[j].id ≠ id) ∧ stale cutoff C[i] t = true ∧
      (∀ j : Fin n, j < i → stale cutoff C[j] t = false) ∧ upsert cutoff C id s t = (C.set i ⟨id, s, t⟩, .slot i)) ∨
    ((∀ j : Fin n, C[j].id ≠ id) ∧ (∀ j : Fin n, stale cutoff C[j] t = false) ∧
      upsert cutoff C id s t = (C, .cacheFull)) := by
  unfold upsert
  cases h1 : firstSlot (fun r => r.id == id) C with
  | some i =>
    obtain ⟨hi, hl⟩ := firstSlot_some h1
    have hid : C[i].id = id := by simpa using hi
    have hlow : ∀ j : Fin n, j < i → C[j].id ≠ id := fun j hj => by simpa using hl j hj
    cases ho : overwrites cutoff C[i] s t with
    | true => exact .inl ⟨i, hid, hlow, ho, by simp only [ho, if_true, hid]⟩
    | false => exact .inr (.inl ⟨i, hid, hlow, ho, by simp only [ho, Bool.false_eq_true, if_false]⟩)
  | none =>
    have hno : ∀ j : Fin n, C[j].id ≠ id := fun j => by simpa using firstSlot_none h1 j
    cases h2 : firstSlot (fun r => stale cutoff r t) C with
    | some i =>
      obtain ⟨hi, hl⟩ := firstSlot_some h2
      exact .inr (.inr (.inl ⟨i, hno, hi, hl, rfl⟩))
    | none => exact .inr (.inr (.inr ⟨hno, firstSlot_none h2, rfl⟩))

/-- A slot after one slot is set. -/
theorem Cache.get_set (C : Cache w n) (i j : Fin n) (r : BeaconRecord w) :
    (C.set i r)[j] = if i = j then r else C[j] := by
  simp [Vector.getElem_set, Fin.ext_iff]

end Sys2Proof.Machine
end

