-- ==== Sys2Proof/Laws/State.lean ====
section
/-! SUPPORT. What each update of the state leaves in each field, and what `checked` and `takeCommand` can answer. -/

namespace Sys2Proof.Machine

section Unit

variable {c : Configuration} (u : UnitState c) (m : Memory) (C : Cache c.tickW c.capacity) (st : Status) (a : Byte) (h : Half)
  (t : Word32) (e : UnitState c × Response)

@[simp] theorem UnitState.withPkt_pkt : (u.withPkt m).pkt = m := rfl
@[simp] theorem UnitState.withPkt_cache : (u.withPkt m).cache = u.cache := rfl
@[simp] theorem UnitState.withCache_pkt : (u.withCache C).pkt = u.pkt := rfl
@[simp] theorem UnitState.withCache_cache : (u.withCache C).cache = C := rfl
@[simp] theorem UnitState.withCache_self : u.withCache u.cache = u := rfl
@[simp] theorem UnitState.withPkt_withCache_self : (u.withPkt m).withCache u.cache = u.withPkt m := rfl

@[simp] theorem UnitState.respondOk_state : (u.respondOk a h t).1 = u := rfl
@[simp] theorem UnitState.respondOk_response : (u.respondOk a h t).2 = ⟨.ok, a, h, t⟩ := rfl
@[simp] theorem UnitState.raise_state : (u.raise st a h t).1 = u := rfl
@[simp] theorem UnitState.raise_response : (u.raise st a h t).2 = ⟨st, a, h, t⟩ := rfl

@[simp] theorem UnitState.checked_true : u.checked true e = e := rfl
@[simp] theorem UnitState.checked_false : u.checked false e = u.raise .errOperand 0#8 0#16 0#32 := rfl

/-- All that the operand check can do: let the effect through, or refuse with `ERR_OPERAND`. -/
theorem UnitState.checked_cases (b : Bool) :
    (b = true ∧ u.checked b e = e) ∨ (b = false ∧ u.checked b e = u.raise .errOperand 0#8 0#16 0#32) := by
  cases b <;> simp

end Unit

variable (s : State) (m : Memory) (C : Cache Config.tickW Config.capacity) (r : Response) (w : Word)

@[simp] theorem State.withPkt_pkt : (s.withPkt m).pkt = m := rfl
@[simp] theorem State.withPkt_cache : (s.withPkt m).cache = s.cache := rfl
@[simp] theorem State.withPkt_pending : (s.withPkt m).pending = s.pending := rfl
@[simp] theorem State.withPkt_responses : (s.withPkt m).responses = s.responses := rfl

@[simp] theorem State.withCache_pkt : (s.withCache C).pkt = s.pkt := rfl
@[simp] theorem State.withCache_cache : (s.withCache C).cache = C := rfl
@[simp] theorem State.withCache_pending : (s.withCache C).pending = s.pending := rfl
@[simp] theorem State.withCache_responses : (s.withCache C).responses = s.responses := rfl

@[simp] theorem State.answer_pkt : (s.answer r).pkt = s.pkt := rfl
@[simp] theorem State.answer_cache : (s.answer r).cache = s.cache := rfl
@[simp] theorem State.answer_pending : (s.answer r).pending = s.pending := rfl
@[simp] theorem State.answer_responses : (s.answer r).responses = s.responses ++ [r] := rfl

@[simp] theorem State.performs_pkt (f : UnitState Config.record → UnitState Config.record × Response) :
    (s.performs f).pkt = (f s.unit).1.pkt := rfl
@[simp] theorem State.performs_cache (f : UnitState Config.record → UnitState Config.record × Response) :
    (s.performs f).cache = (f s.unit).1.cache := rfl
@[simp] theorem State.performs_pending (f : UnitState Config.record → UnitState Config.record × Response) :
    (s.performs f).pending = s.pending := rfl
@[simp] theorem State.performs_responses (f : UnitState Config.record → UnitState Config.record × Response) :
    (s.performs f).responses = s.responses ++ [(f s.unit).2] := rfl

/-- A command that leaves the unit as it was only answers. -/
theorem State.performs_answer {f : UnitState Config.record → UnitState Config.record × Response} {r : Response}
    (h : f s.unit = (s.unit, r)) : s.performs f = s.answer r := by
  unfold State.performs; rw [h]; rfl

/-- A command that leaves only another buffer. -/
theorem State.performs_withPkt {f : UnitState Config.record → UnitState Config.record × Response} {m : Memory} {r : Response}
    (h : f s.unit = (s.unit.withPkt m, r)) : s.performs f = (s.withPkt m).answer r := by
  unfold State.performs; rw [h]; rfl

/-- A command that leaves another buffer and another cache. -/
theorem State.performs_withPkt_withCache {f : UnitState Config.record → UnitState Config.record × Response} {m : Memory}
    {C : Cache Config.tickW Config.capacity} {r : Response} (h : f s.unit = ((s.unit.withPkt m).withCache C, r)) :
    s.performs f = ((s.withPkt m).withCache C).answer r := by
  unfold State.performs; rw [h]; rfl

/-- A command that leaves only another cache. -/
theorem State.performs_withCache {f : UnitState Config.record → UnitState Config.record × Response}
    {C : Cache Config.tickW Config.capacity} {r : Response} (h : f s.unit = (s.unit.withCache C, r)) :
    s.performs f = (s.withCache C).answer r := by
  unfold State.performs; rw [h]; rfl

@[simp] theorem State.unit_pkt : s.unit.pkt = s.pkt := rfl
@[simp] theorem State.unit_cache : s.unit.cache = s.cache := rfl
@[simp] theorem State.unit_answer : (s.answer r).unit = s.unit := rfl

@[simp] theorem State.present_pkt : (s.present w).pkt = s.pkt := rfl
@[simp] theorem State.present_cache : (s.present w).cache = s.cache := rfl
@[simp] theorem State.present_pending : (s.present w).pending = w :: s.pending := rfl
@[simp] theorem State.present_responses : (s.present w).responses = s.responses := rfl

@[simp] theorem State.withCache_self : s.withCache s.cache = s := rfl

@[simp] theorem State.withPkt_withCache_self : (s.withPkt m).withCache s.cache = s.withPkt m := rfl

/-- All that taking a command can answer. -/
theorem State.takeCommand_cases :
    (s.pending = [] ∧ s.takeCommand = none) ∨
    (∃ w rest, s.pending = w :: rest ∧ s.takeCommand = some (w, { s with pending := rest })) := by
  unfold State.takeCommand
  cases s.pending with
  | nil => exact .inl ⟨rfl, rfl⟩
  | cons w rest => exact .inr ⟨w, rest, rfl, rfl⟩

@[simp] theorem State.takeCommand_present : (s.present w).takeCommand = some (w, s) := rfl

end Sys2Proof.Machine
end

