-- ==== Sys2Proof/Laws/Memory.lean ====
section
/-! SUPPORT. Laws of the packet buffer: a read after a write, the canonical form, and whole-block reads and writes. The read laws
hold for every list of cells; only the canonical form needs `Memory.wf`. -/

namespace Sys2Proof.Machine

@[simp] theorem Memory.read_nil (a : Nat) : Memory.read [] a = Memory.unlisted := rfl

theorem Memory.read_cons (k : Nat) (v : Byte) (rest : Memory) (a : Nat) :
    Memory.read ((k, v) :: rest) a = if k = a then v else Memory.read rest a := rfl

theorem Memory.forget_cons (k : Nat) (v : Byte) (rest : Memory) (a : Nat) :
    Memory.forget ((k, v) :: rest) a = if k = a then Memory.forget rest a else (k, v) :: Memory.forget rest a := by
  by_cases hk : k = a <;> simp [Memory.forget, hk]

theorem Memory.read_forget (m : Memory) (a b : Nat) :
    (m.forget a).read b = if a = b then Memory.unlisted else m.read b := by
  induction m with
  | nil => simp [Memory.forget]
  | cons c rest ih =>
    obtain ⟨k, v⟩ := c
    rw [Memory.forget_cons, Memory.read_cons]
    by_cases hk : k = a
    · subst hk
      rw [if_pos rfl, ih]
      by_cases hb : k = b <;> simp [hb]
    · rw [if_neg hk, Memory.read_cons, ih]
      by_cases hb : k = b
      · subst hb; simp [Ne.symm hk]
      · simp [hb]

theorem Memory.read_put_of_forget (m : Memory) (a : Nat) (v : Byte) (b : Nat) :
    ((m.forget a).put a v).read b = if a = b then v else m.read b := by
  induction m with
  | nil => simp [Memory.forget, Memory.put, Memory.read_cons]
  | cons c rest ih =>
    obtain ⟨k, x⟩ := c
    rw [Memory.forget_cons, Memory.read_cons]
    by_cases hk : k = a
    · subst hk
      rw [if_pos rfl, ih]
      by_cases hb : k = b <;> simp [hb]
    · rw [if_neg hk]
      unfold Memory.put
      by_cases hlt : a < k
      · rw [if_pos hlt, Memory.read_cons, Memory.read_cons, Memory.read_forget]
        by_cases hb : a = b <;> simp [hb]
      · rw [if_neg hlt, Memory.read_cons, ih]
        by_cases hb : k = b
        · subst hb; simp [Ne.symm hk]
        · simp [hb]

/-- What a write leaves at every address. -/
theorem Memory.read_write (m : Memory) (a : Nat) (v : Byte) (b : Nat) :
    (m.write a v).read b = if a = b then v else m.read b := by
  unfold Memory.write
  split
  · next hv => rw [Memory.read_forget, hv]
  · exact Memory.read_put_of_forget m a v b

@[simp] theorem Memory.read_write_same (m : Memory) (a : Nat) (v : Byte) : (m.write a v).read a = v := by
  rw [Memory.read_write, if_pos rfl]

theorem Memory.read_write_other (m : Memory) {a b : Nat} (v : Byte) (h : a ≠ b) : (m.write a v).read b = m.read b := by
  rw [Memory.read_write, if_neg h]

theorem Memory.wf_nil : Memory.wf [] := ⟨List.Pairwise.nil, by simp⟩

theorem Memory.forget_wf {m : Memory} (h : m.wf) (a : Nat) : (m.forget a).wf :=
  ⟨h.1.filter _, fun c hc => h.2 c (List.mem_of_mem_filter hc)⟩

theorem Memory.mem_put {m : Memory} {a : Nat} {v : Byte} {c : Host.Cell} (h : c ∈ m.put a v) : c = (a, v) ∨ c ∈ m := by
  induction m with
  | nil => simpa [Memory.put] using h
  | cons d rest ih =>
    obtain ⟨k, x⟩ := d
    unfold Memory.put at h
    split at h
    · simpa using h
    · rcases List.mem_cons.1 h with h | h
      · simp [h]
      · rcases ih h with h | h <;> simp [h]

theorem Memory.put_sorted {m : Memory} {a : Nat} (v : Byte) (h : m.Pairwise (fun c d => c.1 < d.1))
    (hn : ∀ c ∈ m, c.1 ≠ a) : (m.put a v).Pairwise (fun c d => c.1 < d.1) := by
  induction m with
  | nil => simp [Memory.put]
  | cons d rest ih =>
    obtain ⟨k, x⟩ := d
    obtain ⟨hk, hr⟩ := List.pairwise_cons.1 h
    unfold Memory.put
    split
    · next hlt =>
      refine List.pairwise_cons.2 ⟨fun c hc => ?_, h⟩
      rcases List.mem_cons.1 hc with rfl | hc
      · exact hlt
      · exact lt_trans hlt (hk c hc)
    · next hlt =>
      have hka : k < a := lt_of_le_of_ne (not_lt.1 hlt) (hn (k, x) (by simp))
      refine List.pairwise_cons.2 ⟨fun c hc => ?_, ih hr (fun c hc => hn c (by simp [hc]))⟩
      rcases Memory.mem_put hc with rfl | hc
      · exact hka
      · exact hk c hc

/-- A write inside the buffer keeps the canonical form. -/
theorem Memory.write_wf {m : Memory} (h : m.wf) {a : Nat} (ha : a < Config.pktSize) (v : Byte) : (m.write a v).wf := by
  unfold Memory.write
  split
  · exact Memory.forget_wf h a
  · next hv =>
    have hf := Memory.forget_wf h a
    refine ⟨Memory.put_sorted v hf.1 (fun c hc => ?_), fun c hc => ?_⟩
    · simpa using (List.mem_filter.1 hc).2
    · rcases Memory.mem_put hc with rfl | hc
      · exact ⟨ha, hv⟩
      · exact hf.2 c hc

/-- What a list write leaves at every address. -/
theorem Memory.read_writeList (m : Memory) (vs : List Byte) (a b : Nat) :
    (m.writeList a vs).read b = if h : a ≤ b ∧ b - a < vs.length then vs[b - a]'h.2 else m.read b := by
  induction vs generalizing m a with
  | nil => simp [Memory.writeList]
  | cons v vs ih =>
    rw [Memory.writeList, ih, Memory.read_write]
    by_cases h1 : a = b
    · subst h1; simp
    · by_cases h2 : a ≤ b
      · have h3 : a + 1 ≤ b := by omega
        have h4 : b - a = (b - (a + 1)) + 1 := by omega
        by_cases h5 : b - (a + 1) < vs.length
        · have h6 : b - a < (v :: vs).length := by simp; omega
          simp only [h2, h3, h5, h6, and_self, dite_true]
          simp [h4]
        · have h6 : ¬ b - a < (v :: vs).length := by simp; omega
          simp [h1, h2, h3, h5]; omega
      · have h3 : ¬ a + 1 ≤ b := by omega
        simp [h1, h2, h3]

theorem Memory.writeList_wf {m : Memory} (h : m.wf) (vs : List Byte) (a : Nat) (ha : a + vs.length ≤ Config.pktSize) :
    (m.writeList a vs).wf := by
  induction vs generalizing m a with
  | nil => exact h
  | cons v vs ih =>
    simp only [List.length_cons] at ha
    exact ih (Memory.write_wf h (by omega) v) (a + 1) (by omega)

@[simp] theorem Memory.block_get (m : Memory) (i : Nat) (h : i < 16) : m.block[i] = m.read i := by
  simp [Memory.block]

/-- What writing a whole block leaves at every address. -/
theorem Memory.read_writeBlock (m : Memory) (B : Block) (a : Nat) :
    (m.writeBlock B).read a = if h : a < 16 then B[a] else m.read a := by
  simp [Memory.writeBlock, Memory.read_writeList]

/-- A block written is the block read. -/
@[simp] theorem Memory.block_writeBlock (m : Memory) (B : Block) : (m.writeBlock B).block = B := by
  ext i h
  simp [Memory.read_writeBlock, h]

/-- Writing a whole block keeps the canonical form. -/
theorem Memory.writeBlock_wf {m : Memory} (h : m.wf) (B : Block) : (m.writeBlock B).wf :=
  Memory.writeList_wf h _ 0 (by simp)

/-- A prefix of the buffer is a prefix of its block. -/
theorem Memory.readList_eq_take (m : Memory) (n : Nat) (h : n ≤ 16) : m.readList 0 n = m.block.toList.take n := by
  apply List.ext_getElem
  · simp [Memory.readList, h]
  · intro i h1 h2
    simp [Memory.readList]

/-- Two canonical memories that read alike are equal. -/
theorem Memory.wf_ext {m m' : Memory} (h : m.wf) (h' : m'.wf) (hr : ∀ a, m.read a = m'.read a) : m = m' := by
  have key : ∀ (k : Nat) (v : Byte) (rest : Memory), Memory.wf ((k, v) :: rest) →
      (∀ a, a < k → Memory.read rest a = Memory.unlisted) ∧ Memory.read rest k = Memory.unlisted := by
    intro k v rest hw
    have hlt : ∀ c ∈ rest, k < c.1 := (List.pairwise_cons.1 hw.1).1
    have : ∀ a, a ≤ k → Memory.read rest a = Memory.unlisted := by
      intro a ha
      clear hw
      induction rest with
      | nil => rfl
      | cons d rest ih =>
        obtain ⟨j, x⟩ := d
        have hj : k < j := hlt (j, x) (by simp)
        rw [Memory.read_cons, if_neg (by omega)]
        exact ih (fun c hc => hlt c (by simp [hc]))
    exact ⟨fun a ha => this a ha.le, this k le_rfl⟩
  have tail : ∀ (c : Host.Cell) (rest : Memory), Memory.wf (c :: rest) → Memory.wf rest := fun c rest hw =>
    ⟨(List.pairwise_cons.1 hw.1).2, fun d hd => hw.2 d (by simp [hd])⟩
  induction m generalizing m' with
  | nil =>
    cases m' with
    | nil => rfl
    | cons d rest =>
      obtain ⟨j, x⟩ := d
      have := hr j
      rw [Memory.read_nil, Memory.read_cons, if_pos rfl] at this
      exact absurd this.symm (h'.2 (j, x) (by simp)).2
  | cons c rest ih =>
    obtain ⟨k, v⟩ := c
    cases m' with
    | nil =>
      have := hr k
      rw [Memory.read_nil, Memory.read_cons, if_pos rfl] at this
      exact absurd this (h.2 (k, v) (by simp)).2
    | cons d rest' =>
      obtain ⟨j, x⟩ := d
      have hv := (h.2 (k, v) (by simp)).2
      have hx := (h'.2 (j, x) (by simp)).2
      have e1 := hr k
      have e2 := hr j
      rw [Memory.read_cons, if_pos rfl, Memory.read_cons] at e1
      rw [Memory.read_cons, Memory.read_cons, if_pos rfl] at e2
      have hjk : j = k := by
        rcases lt_trichotomy j k with hl | he | hg
        · rw [if_neg (by omega), (key k v rest h).1 j hl] at e2
          exact absurd e2.symm hx
        · exact he
        · rw [if_neg (by omega), (key j x rest' h').1 k hg] at e1
          exact absurd e1 hv
      subst hjk
      rw [if_pos rfl] at e1
      subst e1
      congr 1
      refine ih (tail _ _ h) (tail _ _ h') (fun a => ?_)
      by_cases ha : j = a
      · subst ha; rw [(key j v rest h).2, (key j v rest' h').2]
      · have := hr a
        rwa [Memory.read_cons, Memory.read_cons, if_neg ha, if_neg ha] at this

end Sys2Proof.Machine
end

