-- ==== Sys2Proof/Laws/Operands.lean ====
section
/-! SUPPORT. What each operand condition says in numbers, and the four fields of a word as a word. -/

namespace Sys2Proof

@[simp] theorem indexInBuffer_eq_true (h : Half) : indexInBuffer h = true ↔ h.toNat < 16 := by
  simp [indexInBuffer, Config.pktSize]

@[simp] theorem indexInBuffer_eq_false (h : Half) : indexInBuffer h = false ↔ 16 ≤ h.toNat := by
  simp [indexInBuffer, Config.pktSize]

@[simp] theorem lengthInBuffer_eq_true (a : Byte) : lengthInBuffer a = true ↔ a.toNat ≤ 16 := by
  simp [lengthInBuffer, Config.pktSize]

@[simp] theorem lengthInBuffer_eq_false (a : Byte) : lengthInBuffer a = false ↔ 16 < a.toNat := by
  simp [lengthInBuffer, Config.pktSize]

@[simp] theorem indexInCache_eq_true (c : Configuration) (h : Half) : indexInCache c h = true ↔ h.toNat < c.capacity := by
  simp [indexInCache]

@[simp] theorem indexInCache_eq_false (c : Configuration) (h : Half) : indexInCache c h = false ↔ c.capacity ≤ h.toNat := by
  simp [indexInCache]

theorem tickInRange_eq_true (c : Configuration) (t : Word32) : tickInRange c t = true ↔ t.toNat < 2 ^ c.tickW := by
  simp [tickInRange]

theorem tickInRange_eq_false (c : Configuration) (t : Word32) : tickInRange c t = false ↔ 2 ^ c.tickW ≤ t.toNat := by
  simp [tickInRange]

/-- With a tick width of 32 every tick operand is in range (R61). -/
@[simp] theorem tickInRange_record (t : Word32) : tickInRange Config.record t = true :=
  decide_eq_true (show t.toNat < 2 ^ 32 from t.isLt)

@[simp] theorem tickOf_record (t : Word32) : tickOf Config.record t = t := BitVec.setWidth_eq t

/-- A word is its four fields (R60). -/
theorem packWord_fields (w : Word) : packWord (opField w) (aField w) (hField w) (tField w) = w := by
  apply BitVec.eq_of_getLsbD_eq
  intro i hi
  simp only [packWord, opField, aField, hField, tField]
  rw [BitVec.getLsbD_append, BitVec.getLsbD_append, BitVec.getLsbD_append]
  simp only [BitVec.getLsbD_extractLsb']
  by_cases h1 : i < 32
  · simp [h1]
  · by_cases h2 : i - 32 < 16
    · simp [h1, h2]; congr 1; omega
    · by_cases h3 : i - 32 - 16 < 8
      · simp [h1, h2, h3]; congr 1; omega
      · have h4 : i - 32 - 16 - 8 < 8 := by omega
        simp [h1, h2, h3, h4]; congr 1; omega

end Sys2Proof
end

