-- ==== Sys2Proof/Laws/PerInstr.lean ====
section
/-! SUPPORT. Families of statements about commands as text of the command word, one lemma per constructor. -/

namespace Sys2Proof

@[simp] theorem opField_packWord (op a : Byte) (h : Half) (t : Word32) : opField (packWord op a h t) = op := by
  ext i hi
  simp only [opField, packWord, BitVec.getElem_extractLsb', BitVec.getLsbD_append]
  have h1 : ¬ (56 + i < 32) := by omega
  have h2 : ¬ (56 + i - 32 < 16) := by omega
  have h3 : ¬ (56 + i - 32 - 16 < 8) := by omega
  have h4 : 56 + i - 32 - 16 - 8 = i := by omega
  simp [h1, h2, h3, h4, hi]

@[simp] theorem aField_packWord (op a : Byte) (h : Half) (t : Word32) : aField (packWord op a h t) = a := by
  ext i hi
  simp only [aField, packWord, BitVec.getElem_extractLsb', BitVec.getLsbD_append]
  have h1 : ¬ (48 + i < 32) := by omega
  have h2 : ¬ (48 + i - 32 < 16) := by omega
  have h3 : 48 + i - 32 - 16 < 8 := by omega
  have h4 : 48 + i - 32 - 16 = i := by omega
  simp [h1, h2, h4, hi]

@[simp] theorem hField_packWord (op a : Byte) (h : Half) (t : Word32) : hField (packWord op a h t) = h := by
  ext i hi
  simp only [hField, packWord, BitVec.getElem_extractLsb', BitVec.getLsbD_append]
  have h1 : ¬ (32 + i < 32) := by omega
  have h2 : 32 + i - 32 = i := by omega
  simp [h2, hi]

@[simp] theorem tField_packWord (op a : Byte) (h : Half) (t : Word32) : tField (packWord op a h t) = t := by
  ext i hi
  simp only [tField, packWord, BitVec.getElem_extractLsb', BitVec.getLsbD_append]
  have h1 : 0 + i = i := by omega
  simp [h1, hi]

/-- The opcode field of a command's word is the opcode of R63. -/
def Laws.EncodedOpcode.Statement (i : Instr) : Prop := opField (encode i) = i.opcode

theorem Laws.EncodedOpcode.nop : Laws.EncodedOpcode.Statement .nop := opField_packWord _ _ _ _
theorem Laws.EncodedOpcode.putb (idx : Half) (byte : Byte) : Laws.EncodedOpcode.Statement (.putb idx byte) := opField_packWord _ _ _ _
theorem Laws.EncodedOpcode.getb (idx : Half) : Laws.EncodedOpcode.Statement (.getb idx) := opField_packWord _ _ _ _
theorem Laws.EncodedOpcode.crc (len : Byte) : Laws.EncodedOpcode.Statement (.crc len) := opField_packWord _ _ _ _
theorem Laws.EncodedOpcode.chk : Laws.EncodedOpcode.Statement .chk := opField_packWord _ _ _ _
theorem Laws.EncodedOpcode.norm : Laws.EncodedOpcode.Statement .norm := opField_packWord _ _ _ _
theorem Laws.EncodedOpcode.dec : Laws.EncodedOpcode.Statement .dec := opField_packWord _ _ _ _
theorem Laws.EncodedOpcode.disp : Laws.EncodedOpcode.Statement .disp := opField_packWord _ _ _ _
theorem Laws.EncodedOpcode.upsert (id : Half) (strength : Byte) (tick : Word32) :
    Laws.EncodedOpcode.Statement (.upsert id strength tick) := opField_packWord _ _ _ _
theorem Laws.EncodedOpcode.rdslot (idx : Half) : Laws.EncodedOpcode.Statement (.rdslot idx) := opField_packWord _ _ _ _
theorem Laws.EncodedOpcode.rxpkt (tick : Word32) : Laws.EncodedOpcode.Statement (.rxpkt tick) := opField_packWord _ _ _ _

end Sys2Proof
end

