-- ==== Sys2Proof/Laws/Pipeline.lean ====
section
/-! SUPPORT. What the unit's `upsert` and the per-packet pipeline can answer, said once. -/

namespace Sys2Proof.Machine

variable {c : Configuration}

/-- An `upsert` that answers `CACHE_FULL` leaves the cache (R133, phase 3). -/
theorem UnitState.upserted_cacheFull {u : UnitState c} {id : Half} {strength : Byte} {tick : Word32}
    {C : Cache c.tickW c.capacity} (h : u.upserted id strength tick = (C, .cacheFull)) : C = u.cache := by
  unfold UnitState.upserted at h
  rcases upsert_cases (cutoffTickOf c) u.cache id strength (tickOf c tick) with
    ⟨_, _, _, _, e⟩ | ⟨_, _, _, _, e⟩ | ⟨_, _, _, _, e⟩ | ⟨_, _, e⟩
  all_goals rw [e] at h
  · simp at h
  · simp at h
  · simp at h
  · exact (Prod.mk.inj h).1.symm

/-- All that `UPSERT` can do (R135): refuse the tick, return a slot, or find the cache full. -/
theorem UnitState.upsert_command_cases (id : Half) (strength : Byte) (tick : Word32) (u : UnitState c) :
    (tickInRange c tick = false ∧ u.upsert id strength tick = u.raise .errOperand 0#8 0#16 0#32) ∨
    (∃ C i, tickInRange c tick = true ∧ u.upserted id strength tick = (C, .slot i) ∧
      u.upsert id strength tick = (u.withCache C).respondOk 0#8 0#16 (slotWord i)) ∨
    (tickInRange c tick = true ∧ u.upserted id strength tick = (u.cache, .cacheFull) ∧
      u.upsert id strength tick = u.raise .cacheFull 0#8 0#16 0#32) := by
  unfold UnitState.upsert
  cases ht : tickInRange c tick with
  | false => exact .inl ⟨rfl, rfl⟩
  | true =>
    rcases hu : u.upserted id strength tick with ⟨C, i | _⟩
    · exact .inr (.inl ⟨C, i, rfl, rfl, rfl⟩)
    · obtain rfl := UnitState.upserted_cacheFull hu
      exact .inr (.inr ⟨rfl, rfl, rfl⟩)

/-- All that a well-formed `RXPKT` can do (R160): fail the checksum, update a slot, or find the cache full. -/
theorem UnitState.receiveWith_cases (L : Layout) (dec : Block → Block) (tick : Word32) (u : UnitState c) :
    let B := plaintextOf dec u.pkt.block
    let o := dispatch L B
    (verify B = false ∧ u.receiveWith L dec tick =
      (u.withPkt (u.pkt.writeBlock B)).raise .crcFail 0#8 (computedChecksum B) ((carriedChecksum B).setWidth 32)) ∨
    (∃ C i, verify B = true ∧ u.upserted o.oid o.trackerStrength tick = (C, .slot i) ∧ u.receiveWith L dec tick =
      ((u.withPkt (u.pkt.writeBlock B)).withCache C).respondOk o.trackerStrength o.oid (slotWord i)) ∨
    (verify B = true ∧ u.upserted o.oid o.trackerStrength tick = (u.cache, .cacheFull) ∧ u.receiveWith L dec tick =
      (u.withPkt (u.pkt.writeBlock B)).raise .cacheFull o.trackerStrength o.oid 0#32) := by
  intro B o
  cases hv : verify B with
  | false => exact .inl ⟨rfl, by simp only [receiveWith, B, hv, Bool.false_eq_true, if_false]⟩
  | true =>
    rcases hu : u.upserted o.oid o.trackerStrength tick with ⟨C, i | _⟩
    · exact .inr (.inl ⟨C, i, rfl, rfl, by simp only [receiveWith, B, hv, if_true, o, hu]⟩)
    · obtain rfl := UnitState.upserted_cacheFull hu
      exact .inr (.inr ⟨rfl, rfl, by simp only [receiveWith, B, hv, if_true, o, hu, UnitState.withPkt_withCache_self]⟩)

end Sys2Proof.Machine
end

