-- ==== Sys2Proof/Laws/Step.lean ====
section
/-! SUPPORT. What the decoder, the command port and a step can answer, said once. -/

namespace Sys2Proof.Machine

/-- All that accepting a word can answer. -/
theorem accept_cases (c : Configuration) (z : Bool) (i : Instr) :
    (z = true ∧ i.wellFormedFor c = true ∧ accept c z i = .command i) ∨
    ((z = false ∨ i.wellFormedFor c = false) ∧ accept c z i = .illFormed) := by
  unfold accept
  cases z <;> cases h : i.wellFormedFor c <;> simp

/-- All that running a word can answer. -/
theorem runWord_cases (w : Word) (s : State) :
    (decode w = .noCommand ∧ runWord w s = .next (s.answer ⟨.errOpcode, 0#8, 0#16, 0#32⟩)) ∨
    (decode w = .illFormed ∧ runWord w s = .next (s.answer ⟨.errOperand, 0#8, 0#16, 0#32⟩)) ∨
    (∃ i, decode w = .command i ∧ runWord w s = exec i s) := by
  unfold runWord
  cases h : decode w with
  | noCommand => exact .inl ⟨rfl, rfl⟩
  | illFormed => exact .inr (.inl ⟨rfl, rfl⟩)
  | command i => exact .inr (.inr ⟨i, rfl, rfl⟩)

theorem step_eq_runWord {s : State} {w : Word} {rest : List Word} (h : s.pending = w :: rest) :
    step s = runWord w { s with pending := rest } := by
  simp [step, serve, State.takeCommand, h]

theorem step_eq_self {s : State} (h : s.pending = []) : step s = .next s := by
  simp [step, serve, State.takeCommand, h]

/-- All that a step can be: nothing presented and the state held, or the next word run. -/
theorem step_cases (s : State) :
    (s.pending = [] ∧ step s = .next s) ∨
    (∃ w rest, s.pending = w :: rest ∧ step s = runWord w { s with pending := rest }) := by
  rcases h : s.pending with _ | ⟨w, rest⟩
  · exact .inl ⟨rfl, step_eq_self h⟩
  · exact .inr ⟨w, rest, rfl, step_eq_runWord h⟩

end Sys2Proof.Machine
end

