-- ==== Sys2Proof/Laws/Unit.lean ====
section
/-! SUPPORT. What each command leaves in the state of this machine, said once: the unit's command at `Config.record`. -/

namespace Sys2Proof.Machine

variable (s : State) (idx id : Half) (byte len strength : Byte) (tick : Word32)

/-- `exec` is the unit's command under this machine's configuration, its response recorded (R6, R180). -/
theorem exec_eq_performs (i : Instr) : exec i s = .next (s.performs (UnitState.command i)) := by
  cases i <;> rfl

theorem execNop_eq : execNop s = .next (s.answer ⟨.ok, 0#8, 0#16, 0#32⟩) := rfl

theorem execPutb_eq : execPutb idx byte s = .next (
    if indexInBuffer idx then (s.withPkt (s.pkt.write idx.toNat byte)).answer ⟨.ok, 0#8, 0#16, 0#32⟩
    else s.answer ⟨.errOperand, 0#8, 0#16, 0#32⟩) := by
  unfold execPutb UnitState.putb State.performs
  cases indexInBuffer idx <;> rfl

theorem execGetb_eq : execGetb idx s = .next (
    if indexInBuffer idx then s.answer ⟨.ok, s.pkt.read idx.toNat, 0#16, 0#32⟩
    else s.answer ⟨.errOperand, 0#8, 0#16, 0#32⟩) := by
  unfold execGetb UnitState.getb State.performs
  cases indexInBuffer idx <;> rfl

theorem execCrc_eq : execCrc len s = .next (
    if lengthInBuffer len then s.answer ⟨.ok, 0#8, checksum (s.pkt.readList 0 len.toNat), 0#32⟩
    else s.answer ⟨.errOperand, 0#8, 0#16, 0#32⟩) := by
  cases h : lengthInBuffer len <;>
    exact congrArg Host.Outcome.next (s.performs_answer (by rw [UnitState.crc, h]; rfl))

theorem execChk_eq : execChk s = .next (s.answer ⟨if verify s.pkt.block then .ok else .crcFail, 0#8,
    computedChecksum s.pkt.block, (carriedChecksum s.pkt.block).setWidth 32⟩) := by
  refine congrArg Host.Outcome.next (s.performs_answer ?_)
  rw [UnitState.chk, State.unit_pkt]
  cases verify s.pkt.block <;> rfl

theorem execNorm_eq : execNorm s =
    .next ((s.withPkt (s.pkt.writeBlock (normalizeBlock s.pkt.block))).answer ⟨.ok, 0#8, 0#16, 0#32⟩) :=
  congrArg Host.Outcome.next (s.performs_withPkt (by rw [UnitState.norm, State.unit_pkt]; rfl))

theorem execDec_eq : execDec s =
    .next ((s.withPkt (s.pkt.writeBlock (Config.cipher s.pkt.block))).answer ⟨.ok, 0#8, 0#16, 0#32⟩) :=
  congrArg Host.Outcome.next (s.performs_withPkt (by rw [UnitState.dec, UnitState.decryptWith, State.unit_pkt]; rfl))

theorem execDisp_eq : execDisp s = .next (s.answer ⟨.ok, (dispatch Config.layout s.pkt.block).trackerStrength,
    (dispatch Config.layout s.pkt.block).oid, (dispatch Config.layout s.pkt.block).proto.setWidth 32⟩) := rfl

theorem execRdslot_eq : execRdslot idx s = .next (
    if h : idx.toNat < Config.capacity then
      s.answer ⟨.ok, s.cache[idx.toNat].strength, s.cache[idx.toNat].id, s.cache[idx.toNat].lastSeenTick.setWidth 32⟩
    else s.answer ⟨.errOperand, 0#8, 0#16, 0#32⟩) := by
  by_cases h : idx.toNat < Config.capacity
  · have hc : indexInCache Config.record idx = true := (indexInCache_eq_true _ _).2 h
    have hs : s.unit.slotAt idx.toNat = s.cache[idx.toNat] := dif_pos h
    simp only [execRdslot, UnitState.rdslot, State.performs, hc, hs, UnitState.checked_true, dif_pos h]
    rfl
  · have hc : indexInCache Config.record idx = false := (indexInCache_eq_false _ _).2 (not_lt.1 h)
    simp only [execRdslot, UnitState.rdslot, State.performs, hc, UnitState.checked_false, dif_neg h]
    rfl

/-- All that `UPSERT` can do on this machine (R135); every tick operand is in range. -/
theorem execUpsert_cases :
    (∃ C i, upsert cutoffTick s.cache id strength tick = (C, .slot i) ∧
      execUpsert id strength tick s = .next ((s.withCache C).answer ⟨.ok, 0#8, 0#16, slotWord i⟩)) ∨
    (upsert cutoffTick s.cache id strength tick = (s.cache, .cacheFull) ∧
      execUpsert id strength tick s = .next (s.answer ⟨.cacheFull, 0#8, 0#16, 0#32⟩)) := by
  have ht := tickOf_record tick
  rcases UnitState.upsert_command_cases id strength tick s.unit with ⟨h, _⟩ | ⟨C, i, _, hu, he⟩ | ⟨_, hu, he⟩
  · simp at h
  · rw [UnitState.upserted, ht] at hu
    exact .inl ⟨C, i, hu, congrArg _ (s.performs_withCache he)⟩
  · rw [UnitState.upserted, ht] at hu
    exact .inr ⟨hu, congrArg _ (s.performs_answer he)⟩

/-- All that `RXPKT` can do on this machine (R160); every tick operand is in range. -/
theorem execRxpkt_cases :
    let B := plaintextOf Config.cipher s.pkt.block
    let o := dispatch Config.layout B
    let s' := s.withPkt (s.pkt.writeBlock B)
    (verify B = false ∧ execRxpkt tick s =
      .next (s'.answer ⟨.crcFail, 0#8, computedChecksum B, (carriedChecksum B).setWidth 32⟩)) ∨
    (∃ C i, verify B = true ∧ upsert cutoffTick s.cache o.oid o.trackerStrength tick = (C, .slot i) ∧
      execRxpkt tick s = .next ((s'.withCache C).answer ⟨.ok, o.trackerStrength, o.oid, slotWord i⟩)) ∨
    (verify B = true ∧ upsert cutoffTick s.cache o.oid o.trackerStrength tick = (s.cache, .cacheFull) ∧
      execRxpkt tick s = .next (s'.answer ⟨.cacheFull, o.trackerStrength, o.oid, 0#32⟩)) := by
  intro B o s'
  have ht := tickOf_record tick
  have hx : s.unit.rxpkt tick = s.unit.receiveWith Config.layout Config.cipher tick := by
    simp only [UnitState.rxpkt, tickInRange_record, UnitState.checked_true]
  have key : execRxpkt tick s = .next (s.performs (UnitState.rxpkt tick)) := rfl
  have hc := UnitState.receiveWith_cases Config.layout Config.cipher tick s.unit
  rw [State.unit_pkt] at hc
  rcases hc with ⟨hv, he⟩ | ⟨C, i, hv, hu, he⟩ | ⟨hv, hu, he⟩
  · exact .inl ⟨hv, by rw [key, s.performs_withPkt (hx.trans he)]⟩
  · rw [UnitState.upserted, ht] at hu
    exact .inr (.inl ⟨C, i, hv, hu, by rw [key, s.performs_withPkt_withCache (hx.trans he)]⟩)
  · rw [UnitState.upserted, ht] at hu
    exact .inr (.inr ⟨hv, hu, by rw [key, s.performs_withPkt (hx.trans he)]⟩)

end Sys2Proof.Machine
end

