-- ==== Sys2Proof/Tests/Slice0.lean ====
section
/-! SUPPORT. The model's own tests. Expected values are the spec's: the opcode map (R63), the examples of the command rules, and
95_test_vectors.md (V1 to V7). After them, one witness for the hypotheses of each statement that has some. -/

namespace Sys2Proof.Machine

/-! ## WellFormed: one ill-formed term for each check (R61) -/

theorem test_wf_putb_index : (Instr.putb 16#16 1#8).wellFormed = false := by decide
theorem test_wf_getb_index : (Instr.getb 16#16).wellFormed = false := by decide
theorem test_wf_crc_length : (Instr.crc 17#8).wellFormed = false := by decide
theorem test_wf_rdslot_index : (Instr.rdslot 8#16).wellFormed = false := by decide
theorem test_wf_limits_accepted : (Instr.putb 15#16 1#8).wellFormed = true ∧ (Instr.crc 16#8).wellFormed = true ∧
    (Instr.rdslot 7#16).wellFormed = true ∧ (Instr.rxpkt 0xFFFFFFFF#32).wellFormed = true := by decide

/-! ## Decoding: a word written out from the spec for every constructor (95_test_vectors.md), and its encoding -/

theorem test_decode_nop : decode 0x0000000000000000#64 = .command .nop := by decide
theorem test_decode_putb : decode 0x0167000300000000#64 = .command (.putb 3#16 0x67#8) := by decide
theorem test_decode_getb : decode 0x0200000400000000#64 = .command (.getb 4#16) := by decide
theorem test_decode_crc : decode 0x1009000000000000#64 = .command (.crc 9#8) := by decide
theorem test_decode_chk : decode 0x1100000000000000#64 = .command .chk := by decide
theorem test_decode_norm : decode 0x2000000000000000#64 = .command .norm := by decide
theorem test_decode_dec : decode 0x3000000000000000#64 = .command .dec := by decide
theorem test_decode_disp : decode 0x4000000000000000#64 = .command .disp := by decide
theorem test_decode_upsert : decode 0x50C8000700006DC1#64 = .command (.upsert 7#16 200#8 28097#32) := by decide
theorem test_decode_rdslot : decode 0x5100000700000000#64 = .command (.rdslot 7#16) := by decide
theorem test_decode_rxpkt : decode 0x6000000000004E20#64 = .command (.rxpkt 20000#32) := by decide

theorem test_encode_putb : encode (.putb 3#16 0x67#8) = 0x0167000300000000#64 := by decide
theorem test_encode_upsert : encode (.upsert 7#16 200#8 28097#32) = 0x50C8000700006DC1#64 := by decide
theorem test_decodeTableWord_crc : decodeTableWord 64 0x100E000000000000 = some (.crc 14#8) := by decide

/-- V7: reserved words. -/
theorem test_decode_reserved : [0x0300000000000000#64, 0x1200000000000000#64, 0x5200000000000000#64, 0x6100000000000005#64,
    0xFFFFFFFFFFFFFFFF#64].all (fun w => decode w == .noCommand) = true := by decide

/-- V7: malformed words. -/
theorem test_decode_malformed : [0x0101001000000000#64, 0x0101000000000001#64, 0x0200001000000000#64, 0x0201000000000000#64,
    0x1011000000000000#64, 0x100E000100000000#64, 0x1100000000000001#64, 0x2001000000000000#64, 0x3000000100000000#64,
    0x4000000000000001#64, 0x5100000800000000#64, 0x5101000000000000#64, 0x6001000000000005#64, 0x6000000100000005#64,
    0x0000000000000001#64].all (fun w => decode w == .illFormed) = true := by decide

/-- The opcode map (R63) accepts the written words and no malformed one. -/
theorem test_opcodeMap : inOpcodeMap 0x0167000300000000#64 = true ∧ inOpcodeMap 0x1011000000000000#64 = false ∧
    inOpcodeMap 0x5100000800000000#64 = false ∧ inOpcodeMap 0x6100000000000005#64 = false := by decide

/-! ## One command on a small state -/

/-- A field of the state a meaning leaves, none if it does not go on. -/
def after {α : Type} (o : Host.Outcome State Fault Refusal) (f : State → α) : Option α :=
  match o with
  | .next s => some (f s)
  | .fault _ => none
  | .refused _ => none

/-- The words of the responses. -/
def answers (s : State) : List Word := s.responses.map Response.word

/-- The reset state with a loaded buffer. -/
def holding (B : Block) : State := State.reset.withPkt (Memory.writeBlock [] B)

/-- The layout of T2. -/
def refLayout : Layout := {}

/-- The plaintext block of S9 (V6). -/
def plainS9 : Block := #v[0x18, 0, 0x2A, 0, 7, 0, 0, 0, 0, 0, 0, 0, 0, 0, 0xEB, 0xEE]

/-- The wire packet of S9 under `SUB32LE_K` (V6). -/
def wireS9 : Block := #v[0x19, 0x23, 0x6F, 0x67, 0x90, 0xAB, 0xCD, 0xEF, 0xFE, 0xDC, 0xBA, 0x98, 0x76, 0x55, 0x1D, 0xFE]

/-- The bytes 0, 1, ..., 15. -/
def countBlock : Block := #v[0, 1, 2, 3, 4, 5, 6, 7, 8, 9, 10, 11, 12, 13, 14, 15]

theorem test_nop_answers : after (exec .nop State.reset) answers = some [0#64] := by decide

theorem test_putb_stores : after (exec (.putb 3#16 0x67#8) State.reset) (fun s => (s.pkt, answers s)) =
    some ([(3, 0x67#8)], [0#64]) := by decide
theorem test_putb_zero_unlists : after (exec (.putb 3#16 0#8) { State.reset with pkt := [(3, 0x67#8), (5, 1#8)] }) State.pkt =
    some [(5, 1#8)] := by decide

theorem test_getb_strength : after (exec (.getb 4#16) (holding plainS9)) answers = some [0x0007000000000000#64] := by decide
theorem test_getb_out_of_range : after (exec (.getb 16#16) (holding plainS9)) answers = some [0x8100000000000000#64] := by decide

theorem test_crc_14_reset : after (exec (.crc 14#8) State.reset) answers = some [0x0000A96A00000000#64] := by decide
theorem test_crc_0_reset : after (exec (.crc 0#8) State.reset) answers = some [0x0000FFFF00000000#64] := by decide

theorem test_chk_reset_fails : after (exec .chk State.reset) answers = some [0x0100A96A00000000#64] := by
  decide +kernel
theorem test_chk_passes : after (exec .chk (holding plainS9)) answers = some [0x0000EBEE0000EBEE#64] := by
  decide +kernel

theorem test_norm_example : after (exec .norm (holding countBlock)) (fun s => s.pkt.block) =
    some #v[3, 2, 1, 0, 7, 6, 5, 4, 11, 10, 9, 8, 15, 14, 13, 12] := by decide

/-- R114's example, under `XOR_K`. -/
theorem test_dec_xorK : (UnitState.decryptWith StandIn.xorK.dec
    (holding #v[0xA5, 0x70, 0x3C, 0xDB, 0x0F, 0xF0, 0x11, 0x25, 0x33, 0x44, 0x55, 0x66, 0x99, 0x63, 0x99, 0xAA]).unit).1.pkt.block =
    #v[0, 0x2A, 0, 0x18, 0, 0, 0, 7, 0, 0, 0, 0, 0xEE, 0xEB, 0, 0] := by decide
/-- V3, under `SUB32LE_K`. -/
theorem test_dec_sub32leK : (UnitState.decryptWith StandIn.sub32leK.dec (holding countBlock).unit).1.pkt.block =
    #v[0x99, 0xBB, 0xDE, 0x01, 0x15, 0x37, 0x5A, 0x7D, 0x70, 0x4E, 0x2D, 0x0C, 0xFC, 0xDA, 0xB9, 0x98] := by decide

/-- R122's example: a proximity report, strength forced to 3. -/
theorem test_disp_proximity : ((UnitState.dispatchWith refLayout (holding
    #v[0x45, 0x12, 0x34, 0x80, 0xC8, 0xAA, 0xBB, 0xCC, 0xDD, 0xEE, 1, 2, 3, 4, 0x34, 0x82]).unit).2).word = 0x0003123400000045#64 := by decide
/-- V4: an unrecognized variant, strength kept. -/
theorem test_disp_unrecognized : ((UnitState.dispatchWith refLayout (holding
    #v[0x63, 1, 2, 0x80, 0x55, 0xAA, 0xBB, 0xCC, 0xDD, 0xEE, 1, 2, 3, 4, 0xD1, 0x6C]).unit).2).word = 0x0055010200000063#64 := by decide

/-- The reset cache with slot 0 holding `(7, 10, 20000)` (V5). -/
def slotZeroHeld : State := { State.reset with cache := State.reset.cache.set 0 ⟨7#16, 10#8, 20000#32⟩ }

/-- V5, damping and the staleness boundary: 5 at 20001 replaces, 15 is kept out, 200 at 28096 is kept out, at 28097 it replaces. -/
theorem test_upsert_damping : [(5#8, 20001#32), (15#8, 20001#32), (200#8, 28096#32), (200#8, 28097#32)].map
    (fun p => after (exec (.upsert 7#16 p.1 p.2) slotZeroHeld) (fun s => s.cache[0])) =
    [some ⟨7#16, 5#8, 20001#32⟩, some ⟨7#16, 10#8, 20000#32⟩, some ⟨7#16, 10#8, 20000#32⟩, some ⟨7#16, 200#8, 28097#32⟩] := by
  decide
/-- V5, the reset state at `tick = CUTOFF`: `CACHE_FULL` on an untouched cache. -/
theorem test_upsert_cutoff_full : after (exec (.upsert 5#16 1#8 8096#32) State.reset) (fun s => (s.cache, answers s)) =
    some (State.reset.cache, [0x0200000000000000#64]) := by decide

theorem test_rdslot_example : after (exec (.rdslot 0#16) slotZeroHeld) answers = some [0x000A000700004E20#64] := by decide
theorem test_rdslot_out_of_range : after (exec (.rdslot 8#16) slotZeroHeld) answers = some [0x8100000000000000#64] := by decide

/-- R160's example, under `SUB32LE_K` and the layout of T2. -/
theorem test_rxpkt_example :
    let x := UnitState.receiveWith refLayout StandIn.sub32leK.dec 20000#32 (holding wireS9).unit
    x.2.word = 0x0007002A00000000#64 ∧ x.1.pkt.block = plainS9 ∧ x.1.cache[0] = ⟨42#16, 7#8, 20000#32⟩ := by decide +kernel
/-- P3, command 17: a corrupted packet. -/
theorem test_rxpkt_corrupted :
    let x := UnitState.receiveWith refLayout StandIn.sub32leK.dec 20000#32 (holding (wireS9.set 5 0xAF#8)).unit
    x.2.word = 0x010077010000EBEE#64 ∧ x.1.cache = State.reset.cache := by decide +kernel

/-! ## Functions (V1, V2, V6) and one step of the machine -/

theorem test_crcStep_trace : crcStep 0xFFFF#16 0x31#8 = 0xC782#16 ∧ crcStep 0x1234#16 0xAB#8 = 0x02F2#16 ∧
    crcStep 0x8000#16 0#8 = 0x9188#16 ∧ crcBitwise 0x1234#16 0xAB#8 = 0x02F2#16 := by decide
theorem test_checksum_digits : checksum [0x31#8, 0x32#8, 0x33#8, 0x34#8, 0x35#8, 0x36#8, 0x37#8, 0x38#8, 0x39#8] = 0x29B1#16 := by
  decide
theorem test_wire_of_plain : wirePacketOf StandIn.sub32leK.enc plainS9 = wireS9 := by decide
theorem test_seal : sealBlock (plainS9.set 14 0#8 |>.set 15 0#8) = plainS9 := by decide
theorem test_threshold : threshold cutoffTick 0#32 = 0xFFFFE060#32 ∧ threshold cutoffTick 8095#32 = 0xFFFFFFFF#32 ∧
    threshold cutoffTick 20000#32 = 11904#32 := by decide
theorem test_asmText : asmText (.upsert 7#16 10#8 20000#32) = "UPSERT 7, 10, 20000" := by decide

theorem test_step_runs_fetched_word : after (step (State.reset.withFetchWord 64 0x0167000300000000)) (fun s => (s.pkt, s.pending)) =
    some ([(3, 0x67#8)], []) := by decide
theorem test_step_reserved_word : after (step (State.reset.withFetchWord 64 0x6100000000000005)) answers =
    some [0x8000000000000000#64] := by decide

/-- R9: the constants of this machine's configuration meet the constraints. -/
theorem test_config_constraints : 1 ≤ Config.capacity ∧ Config.capacity ≤ 65536 ∧ Config.cutoff < 2 ^ Config.tickW ∧
    14 ≤ Config.tickW ∧ Config.tickW ≤ 32 ∧ Config.groups * Config.groupSize = Config.pktSize := by decide

/-- The unit under another configuration (R7, R9): two slots, a cutoff of 100, 16-bit ticks, the layout of T2, the cipher `ID`. -/
abbrev smallConfig : Configuration where
  capacity := 2
  cutoff := 100
  tickW := 16
  layout := refLayout
  cipher := Equiv.refl Block
  capacityInRange := by decide
  cutoffIsTick := by decide
  tickFits := by decide

/-- That unit with two records, of ticks 1000 and 1001, over the block of S9. -/
def smallUnit : UnitState smallConfig := ⟨Memory.writeBlock [] plainS9, #v[⟨1#16, 5#8, 1000#16⟩, ⟨2#16, 5#8, 1001#16⟩]⟩

/-- R61, R145: its `RDSLOT` is refused from slot 2 on, its `UPSERT` from tick 65536 on. -/
theorem test_smallConfig_operands : (unitStep smallConfig smallUnit 0x5100000100000000#64).2 = ⟨.ok, 5#8, 2#16, 1001#32⟩ ∧
    (unitStep smallConfig smallUnit 0x5100000200000000#64).2 = ⟨.errOperand, 0#8, 0#16, 0#32⟩ ∧
    (unitStep smallConfig smallUnit 0x5001000900010000#64).2 = ⟨.errOperand, 0#8, 0#16, 0#32⟩ := by decide
/-- R132, R160: at tick 1100 both records are fresh and the packet is dropped, at 1101 the record of tick 1000 is stale. -/
theorem test_smallConfig_pipeline : (unitStep smallConfig smallUnit 0x600000000000044C#64).2 = ⟨.cacheFull, 7#8, 42#16, 0#32⟩ ∧
    (unitStep smallConfig smallUnit 0x600000000000044D#64).1.cache[0] = ⟨42#16, 7#8, 1101#16⟩ := by decide +kernel

/-! ## Witnesses: a concrete state and operands that meet the hypotheses of each statement, at the boundaries of its clauses -/

theorem witness_DecodeOfEncodeIsTheCommand : (Instr.putb 15#16 0xFF#8).wellFormed = true ∧ (Instr.getb 15#16).wellFormed = true ∧
    (Instr.crc 16#8).wellFormed = true ∧ (Instr.rdslot 7#16).wellFormed = true ∧
    (Instr.upsert 0xFFFF#16 0xFF#8 0xFFFFFFFF#32).wellFormed = true := by decide

theorem witness_EncodeOfDecodeIsTheWord : decode 0x50FFFFFFFFFFFFFF#64 = .command (.upsert 0xFFFF#16 0xFF#8 0xFFFFFFFF#32) := by decide

theorem witness_DecodingFollowsTheOpcodeMap :
    opField 0x0300000000000000#64 ∉ opcodeMap.map OpRow.op ∧
    (opField 0x1011000000000000#64 ∈ opcodeMap.map OpRow.op ∧ inOpcodeMap 0x1011000000000000#64 = false) ∧
    inOpcodeMap 0x1010000000000000#64 = true ∧
    ((0x5100000700000000#64 : Word) &&& 0xFFFFFFF8FFFFFFFF#64 = 0x5100000000000000#64) := by decide

/-- The reset state with words presented. -/
def presenting (ws : List Word) : State := { State.reset with pending := ws }

theorem witness_ReservedOpcodeAnswersErrOpcode : (presenting [0x0300000000000000#64]).pending = 0x0300000000000000#64 :: [] ∧
    [0x03#8, 0x0F#8, 0x12#8, 0x1F#8, 0x21#8, 0x2F#8, 0x31#8, 0x3F#8, 0x41#8, 0x4F#8, 0x52#8, 0x5F#8, 0x61#8, 0xFF#8].all (fun op =>
      opField (packWord op 0#8 0#16 0#32) ∉
        [0x00#8, 0x01#8, 0x02#8, 0x10#8, 0x11#8, 0x20#8, 0x30#8, 0x40#8, 0x50#8, 0x51#8, 0x60#8]) = true := by decide

/-- Every clause but those a tick width of 32 leaves empty (R135: no `UPSERT` word is malformed). -/
theorem witness_OperandErrorAnswersErrOperand : (presenting [0x0000000000000001#64]).pending = 0x0000000000000001#64 :: [] ∧
    operandsRefused 0x0000000000000001#64 ∧ operandsRefused 0x0101001000000000#64 ∧ operandsRefused 0x0201000000000000#64 ∧
    operandsRefused 0x1011000000000000#64 ∧ operandsRefused 0x5100000800000000#64 ∧ operandsRefused 0x6001000000000005#64 := by
  refine ⟨by decide, ?_, ?_, ?_, ?_, ?_, ?_⟩ <;> (unfold operandsRefused; dsimp only; decide)

theorem witness_IllFormedCommandIsRefusedByItsMeaning : (Instr.putb 16#16 0#8).wellFormed = false ∧
    (Instr.rdslot 8#16).wellFormed = false := by decide

theorem witness_StepRunsTheDecodedCommand : (presenting [0#64, 1#64]).pending = 0#64 :: [1#64] ∧ decode 0#64 = .command .nop := by
  decide

theorem witness_UnitHoldsItsStateWithoutCommand : State.reset.pending = [] := rfl

/-- For the commands without operands: a word refused by its `t` field, and the only word that runs. -/
theorem witness_runsAs_plain : [0x00#8, 0x11#8, 0x20#8, 0x30#8, 0x40#8].all (fun op =>
    let bad := packWord op 0#8 0#16 1#32
    let good := packWord op 0#8 0#16 0#32
    (presenting [bad]).pending == [bad] && opField bad == op && tField bad != 0#32 &&
      opField good == op && aField good == 0#8 && hField good == 0#16 && tField good == 0#32) = true := by decide

theorem witness_NopOnlyAnswersOk : opField 0x0000000000000001#64 = 0x00#8 ∧ tField 0x0000000000000001#64 ≠ 0#32 ∧
    opField 0x0000000000000000#64 = 0x00#8 ∧ decode 0x0000000000000000#64 = .command .nop := by decide

theorem witness_LoadedPacketReadsBack : 16 ≤ 16 ∧ after (execAll (ldpkt countBlock) State.reset) (fun u => u.pkt.read 16) = some 0#8 := by
  decide +kernel

/-- The last byte of the last group, and the first address outside the buffer. -/
theorem witness_NormReversesEachGroup : opField 0x2001000000000000#64 = 0x20#8 ∧ aField 0x2001000000000000#64 ≠ 0#8 ∧
    (3 < 4 ∧ 4 * 3 + 3 = 15) ∧ after (exec .norm (holding countBlock)) (fun u => (u.pkt.read 15, u.pkt.read 16)) = some (12#8, 0#8) := by
  decide

theorem witness_DispAnswersTheNormalizedObservation : opField 0x4000000000000001#64 = 0x40#8 ∧ tField 0x4000000000000001#64 ≠ 0#32 ∧
    opField 0x4000000000000000#64 = 0x40#8 ∧ decode 0x4000000000000000#64 = .command .disp := by decide

theorem witness_PutbStoresExactlyOneByte :
    (opField 0x0101001000000000#64 = 0x01#8 ∧ 16 ≤ (hField 0x0101001000000000#64).toNat) ∧
    (opField 0x0101000F00000000#64 = 0x01#8 ∧ (hField 0x0101000F00000000#64).toNat < 16 ∧ tField 0x0101000F00000000#64 = 0#32) ∧
    (15#16 : Half).toNat < 16 ∧ 16 ≤ (16#16 : Half).toNat := by decide

theorem witness_GetbAnswersTheByte :
    (opField 0x0200001000000000#64 = 0x02#8 ∧ 16 ≤ (hField 0x0200001000000000#64).toNat) ∧
    (opField 0x0200000F00000000#64 = 0x02#8 ∧ aField 0x0200000F00000000#64 = 0#8 ∧ (hField 0x0200000F00000000#64).toNat < 16 ∧
      tField 0x0200000F00000000#64 = 0#32) := by decide

theorem witness_CrcAnswersThePrefixChecksum :
    (opField 0x1011000000000000#64 = 0x10#8 ∧ 16 < (aField 0x1011000000000000#64).toNat) ∧
    (opField 0x1010000000000000#64 = 0x10#8 ∧ (aField 0x1010000000000000#64).toNat ≤ 16 ∧ hField 0x1010000000000000#64 = 0#16 ∧
      tField 0x1010000000000000#64 = 0#32) ∧ verify (holding plainS9).pkt.block = true := by decide +kernel

theorem witness_ChkComparesComputedWithCarried :
    (checksum ((List.range 14).map (holding plainS9).pkt.read) = 0xEBEE#16 ∧
      ((((holding plainS9).pkt.read 14).setWidth 16 <<< 8) ||| ((holding plainS9).pkt.read 15).setWidth 16 : Half) = 0xEBEE#16) ∧
    (checksum ((List.range 14).map State.reset.pkt.read) = 0xA96A#16 ∧
      (((State.reset.pkt.read 14).setWidth 16 <<< 8) ||| (State.reset.pkt.read 15).setWidth 16 : Half) = 0#16) := by decide +kernel

theorem witness_ChecksumIsLinear : ([1#8, 2#8] : List Byte).length = ([3#8, 4#8] : List Byte).length := rfl

theorem witness_SingleAndDoubleBitErrorsAreDetected : 7 < 8 * ([0#8] : List Byte).length ∧
    (List.replicate 16 0#8).length = 16 ∧ 126 < 127 ∧ 127 < 128 := by decide

theorem witness_OneInvertedBitFailsVerification : verify plainS9 = true := by decide +kernel

theorem witness_NormalizePermutesWithinGroups : ((3 : Fin 16).val = ((0 : Fin 16).val &&& 0xC) ||| (3 - ((0 : Fin 16).val &&& 3))) ∧
    (12 : Fin 16).val = (15 : Fin 16).val ^^^ 3 := by decide

theorem witness_NormalizeIsAnInvolution : (holding countBlock).pktCanonical := by unfold State.pktCanonical; decide

theorem witness_DecDecryptsTheBuffer : exec .dec State.reset = .next (State.reset.performs UnitState.dec) := rfl

theorem witness_ProximityReportsGetStrengthThree :
    plainS9[refLayout.offProto.val] = refLayout.protoTagTracker ∧
    (plainS9.set 0 69#8)[refLayout.offProto.val] = refLayout.protoProxReport ∧
    (plainS9.set 0 70#8)[refLayout.offProto.val] = refLayout.protoProxReportExt ∧
    (plainS9.set 0 99#8)[refLayout.offProto.val] ∉ [refLayout.protoProxReport, refLayout.protoProxReportExt] := by decide

/-- The four cases of the three phases, on the cache of V5: overwritten at equal strength, kept, a stale slot taken, full. -/
theorem witness_UpsertFollowsTheThreePhases :
    (slotZeroHeld.cache[0].id = 7#16 ∧ (10#8 : Byte).toNat ≤ slotZeroHeld.cache[0].strength.toNat) ∧
    (slotZeroHeld.cache[0].strength.toNat < (11#8 : Byte).toNat ∧
      (28096 + 2 ^ 32 - 8096) % 2 ^ 32 ≤ slotZeroHeld.cache[0].lastSeenTick.toNat) ∧
    (holdsNot slotZeroHeld.cache 9#16 ∧ slotZeroHeld.cache[1].lastSeenTick.toNat < (20001 + 2 ^ 32 - 8096) % 2 ^ 32 ∧
      (20001 + 2 ^ 32 - 8096) % 2 ^ 32 ≤ slotZeroHeld.cache[0].lastSeenTick.toNat) ∧
    (holdsNot State.reset.cache 5#16 ∧ ∀ j : Fin Config.capacity,
      (8096 + 2 ^ 32 - 8096) % 2 ^ 32 ≤ State.reset.cache[j].lastSeenTick.toNat) := by decide

theorem witness_UpsertCommandUpdatesTheCache :
    upsert (BitVec.ofNat Config.tickW 8096) slotZeroHeld.cache 9#16 1#8 20001#32 =
      (slotZeroHeld.cache.set 1 ⟨9#16, 1#8, 20001#32⟩, .slot 1) ∧
    upsert (BitVec.ofNat Config.tickW 8096) State.reset.cache 5#16 1#8 8096#32 = (State.reset.cache, .cacheFull) ∧
    opField 0x5001000500001FA0#64 = 0x50#8 ∧ ¬ 2 ^ Config.tickW ≤ (tField 0x5001000500001FA0#64).toNat := by decide

theorem witness_RdslotAnswersTheRecord : (7 : Fin Config.capacity).val = (7#16 : Half).toNat ∧ Config.capacity ≤ (8#16 : Half).toNat ∧
    (opField 0x5100000800000000#64 = 0x51#8 ∧ Config.capacity ≤ (hField 0x5100000800000000#64).toNat) ∧
    (opField 0x5100000700000000#64 = 0x51#8 ∧ aField 0x5100000700000000#64 = 0#8 ∧ tField 0x5100000700000000#64 = 0#32 ∧
      (hField 0x5100000700000000#64).toNat < Config.capacity) := by decide

/-- One tick and one stored tick in each regime, at its edge. -/
theorem witness_StalenessHasThreeRegimes : (cutoffTick.toNat ≤ (8096#32 : Tick).toNat ∧ (8096#32 : Tick).toNat ≤ (8096#32 : Tick).toNat) ∧
    (8096#32 : Tick).toNat < (8097#32 : Tick).toNat ∧ (8095#32 : Tick).toNat < cutoffTick.toNat := by decide

theorem witness_UpsertChangesAtMostTheReturnedSlot :
    (upsert cutoffTick slotZeroHeld.cache 7#16 11#8 20001#32).2 = .slot 0 ∧ slotZeroHeld.cache[0].id = 7#16 ∧
    (upsert cutoffTick slotZeroHeld.cache 9#16 1#8 20001#32).2 = .slot 1 ∧ holdsNot slotZeroHeld.cache 9#16 ∧
    (upsert cutoffTick State.reset.cache 5#16 1#8 8096#32).2 = .cacheFull := by decide

/-- A cache of eight different ids, every record fresh at 20008 (V5). -/
def fullCache : Cache Config.tickW Config.capacity :=
  #v[⟨100#16, 1#8, 20000#32⟩, ⟨101#16, 1#8, 20001#32⟩, ⟨102#16, 1#8, 20002#32⟩, ⟨103#16, 1#8, 20003#32⟩, ⟨104#16, 1#8, 20004#32⟩,
    ⟨105#16, 1#8, 20005#32⟩, ⟨106#16, 1#8, 20006#32⟩, ⟨107#16, 1#8, 20007#32⟩]

theorem witness_UpsertKeepsIdsUnique : idsDistinct fullCache ∧ (5#16 : Half) ≠ 100#16 ∧
    (upsert cutoffTick fullCache 999#16 1#8 20008#32).2 = .cacheFull ∧ (upsert cutoffTick fullCache 999#16 1#8 28097#32).2 ≠ .cacheFull := by
  decide

/-- At the edge `T + 1 = CUTOFF` and in the middle; then a full fresh cache and one stale slot. -/
theorem witness_CachePropertiesOfTheSource :
    (0 < cutoffTick.toNat ∧ cutoffTick.toNat ≤ (8095#32 : Tick).toNat + 1 ∧
      (8095#32 : Tick).toNat + cutoffTick.toNat + 1 < 2 ^ Config.tickW ∧ (0xFFFFFFFE#32 : Tick).toNat + 1 < 2 ^ Config.tickW ∧
      (0xFFFFE05E#32 : Tick).toNat + cutoffTick.toNat + 1 < 2 ^ Config.tickW ∧
      (0xFFFFE05F#32 : Tick).toNat + cutoffTick.toNat < 2 ^ Config.tickW ∧
      heldOnlyBy (State.reset.cache.set 0 ⟨7#16, 10#8, 8095#32⟩) 7#16 0 ∧
      (State.reset.cache.set 0 ⟨7#16, 10#8, 8095#32⟩)[0] = ⟨7#16, 10#8, 8095#32⟩) ∧
    (heldOnlyBy slotZeroHeld.cache 7#16 0 ∧ slotZeroHeld.cache[0] = ⟨7#16, 10#8, 20000#32⟩ ∧
      (10#8 : Byte).toNat ≤ (10#8 : Byte).toNat ∧ (10#8 : Byte).toNat < (11#8 : Byte).toNat) ∧
    (holdsNot fullCache 999#16 ∧ allFresh cutoffTick fullCache 28096#32 ∧ stale cutoffTick fullCache[0] 28097#32 = true) := by decide

theorem witness_FreshlyResetCacheAtEveryTick : State.reset.cache = State.reset.cache ∧ (8095#32 : Word32).toNat ≠ 8096 ∧
    (8097#32 : Word32).toNat ≠ 8096 ∧ (8096#32 : Word32).toNat = 8096 ∧ (1#16 : Half) ≠ 0#16 ∧ (1#8 : Byte) ≠ 0#8 := by decide

theorem witness_FirstTicksOfAnEpochKeepOneTag : 0 < Config.capacity ∧ (8095#32 : Tick).toNat < cutoffTick.toNat ∧
    (∀ i : Fin Config.capacity, (State.reset.cache.set 0 ⟨7#16, 9#8, 8095#32⟩)[i].lastSeenTick.toNat ≤ (8095#32 : Tick).toNat) ∧
    (State.reset.cache.set 0 ⟨7#16, 9#8, 8095#32⟩)[0].id = 7#16 ∧ (0 : Fin Config.capacity).val = 0 ∧
    holdsNot (State.reset.cache.set 0 ⟨7#16, 9#8, 8095#32⟩) 6#16 ∧ (6#16 : Half) ≠ 0#16 ∧ (∀ j : Fin Config.capacity, j.val ≠ 0 →
      (State.reset.cache.set 0 ⟨7#16, 9#8, 8095#32⟩)[j] = BeaconRecord.zero Config.tickW) := by decide

/-- A record one tick in the future at the lowest tick the clause takes, and a cache full of them. -/
theorem witness_RecordsFromTheFutureArePinned : cutoffTick.toNat ≤ (8096#32 : Tick).toNat ∧
    (∀ j : Fin 8, (8096#32 : Tick).toNat < (Vector.replicate 8 (⟨5#16, 1#8, 8097#32⟩ : BeaconRecord 32))[j].lastSeenTick.toNat) ∧
    holdsNot (Vector.replicate 8 (⟨5#16, 1#8, 8097#32⟩ : BeaconRecord 32)) 6#16 := by decide

theorem witness_NoTwoLiveRecordsShareAnId : onlyResetRecordsRepeat slotZeroHeld.cache ∧ (28096#32 : Tick) ≠ cutoffTick ∧
    stale cutoffTick slotZeroHeld.cache[0] 28096#32 = false := by decide

/-- Under every cipher some buffer becomes a given plaintext: both transforms are onto. -/
theorem exists_wire (P : Block) : ∃ B : Block, plaintextOf Config.cipher B = P := by
  have onto : ∀ Q : Block, ∃ R : Block, normalizeBlock R = Q := fun Q => by
    refine ⟨normalizeBlock Q, Vector.ext fun k hk => ?_⟩
    have hp : 4 * ((4 * (k / 4) + (3 - k % 4)) / 4) + (3 - (4 * (k / 4) + (3 - k % 4)) % 4) = k := by omega
    simp only [normalizeBlock, Vector.getElem_ofFn, hp]
  obtain ⟨Q, hQ⟩ := onto P
  obtain ⟨B, hB⟩ := onto (Config.cipher.symm Q)
  exact ⟨B, by simp [plaintextOf, hB, hQ]⟩

/-- Buffers that verify and that do not, and an `upsert` of either result, whatever the cipher and the layout are. -/
theorem witness_RxpktRunsThePipeline :
    (∃ s : State, verify (plaintextOf Config.cipher s.pkt.block) = true) ∧
    (∃ s : State, verify (plaintextOf Config.cipher s.pkt.block) = false) ∧
    (∃ (s : State) (C : Cache Config.tickW Config.capacity) (i : Fin Config.capacity),
      upsert (BitVec.ofNat Config.tickW 8096) s.cache (dispatch Config.layout plainS9).oid
        (dispatch Config.layout plainS9).trackerStrength 20000#32 = (C, .slot i)) ∧
    (∃ (s : State) (C : Cache Config.tickW Config.capacity),
      upsert (BitVec.ofNat Config.tickW 8096) s.cache (dispatch Config.layout plainS9).oid
        (dispatch Config.layout plainS9).trackerStrength 8096#32 = (C, .cacheFull)) := by
  obtain ⟨B, hB⟩ := exists_wire plainS9
  obtain ⟨Z, hZ⟩ := exists_wire (Vector.replicate 16 0#8)
  refine ⟨⟨holding B, ?_⟩, ⟨holding Z, ?_⟩, ?_, ?_⟩
  · simp only [holding, State.withPkt_pkt, Memory.block_writeBlock, hB]; decide +kernel
  · simp only [holding, State.withPkt_pkt, Memory.block_writeBlock, hZ]; decide +kernel
  · refine ⟨State.reset, ?_⟩
    have hs : stale (BitVec.ofNat Config.tickW 8096) State.reset.cache[(0 : Fin Config.capacity)] 20000#32 = true := by decide
    rcases upsert_cases (BitVec.ofNat Config.tickW 8096) State.reset.cache (dispatch Config.layout plainS9).oid
      (dispatch Config.layout plainS9).trackerStrength 20000#32 with
      ⟨i, _, _, _, e⟩ | ⟨i, _, _, _, e⟩ | ⟨i, _, _, _, e⟩ | ⟨_, hf, _⟩
    · exact ⟨_, i, e⟩
    · exact ⟨_, i, e⟩
    · exact ⟨_, i, e⟩
    · exact absurd (hs.symm.trans (hf 0)) (by decide)
  · refine ⟨State.reset.withCache (Vector.replicate Config.capacity ⟨(dispatch Config.layout plainS9).oid + 1#16, 0#8, 0xFFFFFFFF#32⟩),
      Vector.replicate Config.capacity ⟨(dispatch Config.layout plainS9).oid + 1#16, 0#8, 0xFFFFFFFF#32⟩, ?_⟩
    simp only [State.withCache_cache]
    rcases upsert_cases (BitVec.ofNat Config.tickW 8096)
      (Vector.replicate Config.capacity ⟨(dispatch Config.layout plainS9).oid + 1#16, 0#8, 0xFFFFFFFF#32⟩)
      (dispatch Config.layout plainS9).oid (dispatch Config.layout plainS9).trackerStrength 8096#32 with
      ⟨i, h, _⟩ | ⟨i, h, _⟩ | ⟨i, _, h, _⟩ | ⟨_, _, e⟩
    · simp at h
    · simp at h
    · simp [stale, threshold] at h
    · exact e

/-- The last status of `DECODE` then `CHK`: `OK` when the plaintext verifies, `CRC_FAIL` when not. -/
theorem chk_after_decode (s : State) :
    after (execAll (decodePseudo ++ [.chk]) s) (fun v => v.responses.getLast?.map Response.status) =
      some (some (if verify (plaintextOf Config.cipher s.pkt.block) then .ok else .crcFail)) := by
  simp only [decodePseudo, List.cons_append, List.nil_append, execAll, exec, execNorm_eq, execDec_eq, execChk_eq, after]
  cases hv : verify (plaintextOf Config.cipher s.pkt.block) <;> simp_all [plaintextOf]

/-- Canonical states on which that `CHK` answers `CRC_FAIL` and `OK`, whatever the cipher is. -/
theorem witness_RxpktEqualsTheCommandSequence : ∀ st ∈ [Status.ok, Status.crcFail], ∃ s : State, s.pktCanonical ∧
    after (execAll (decodePseudo ++ [.chk]) s) (fun v => v.responses.getLast?.map Response.status) = some (some st) := by
  obtain ⟨B, hB⟩ := exists_wire plainS9
  obtain ⟨Z, hZ⟩ := exists_wire (Vector.replicate 16 0#8)
  have hp : verify plainS9 = true := by decide +kernel
  have hz : verify (Vector.replicate 16 0#8) = false := by decide +kernel
  intro st hst
  rcases List.mem_pair.mp hst with rfl | rfl
  · exact ⟨holding B, Memory.writeBlock_wf Memory.wf_nil B, by simp [chk_after_decode, holding, hB, hp]⟩
  · exact ⟨holding Z, Memory.writeBlock_wf Memory.wf_nil Z, by simp [chk_after_decode, holding, hZ, hz]⟩

theorem witness_WirePacketOfASealedBlockIsAccepted :
    (holding (wirePacketOf Config.cipher.symm (sealBlock plainS9))).pkt.block = wirePacketOf Config.cipher.symm (sealBlock plainS9) ∧
    (holding (wirePacketOf Config.cipher.symm (sealBlock plainS9))).cache = State.reset.cache ∧ (20000#32 : Word32).toNat ≠ 8096 :=
  ⟨by simp [holding], rfl, by decide⟩

/-- One of four values is no named variant, and each of four constant blocks, sealed, verifies. -/
theorem witness_UnrecognizedVariantIsAccepted : ∃ s : State, verify (plaintextOf Config.cipher s.pkt.block) = true ∧
    (plaintextOf Config.cipher s.pkt.block)[Config.layout.offProto.val] ∉
      [Config.layout.protoTagTracker, Config.layout.protoProxReport, Config.layout.protoProxReportExt] := by
  have four : ∀ a b c : Byte, ∃ v ∈ [0#8, 1#8, 2#8, 3#8], v ∉ [a, b, c] := by
    intro a b c
    by_contra hn
    push Not at hn
    have h0 := hn 0#8 (by simp)
    have h1 := hn 1#8 (by simp)
    have h2 := hn 2#8 (by simp)
    have h3 := hn 3#8 (by simp)
    simp only [List.mem_cons, List.not_mem_nil, or_false] at h0 h1 h2 h3
    bv_omega
  have seals : ∀ v ∈ [0#8, 1#8, 2#8, 3#8], verify (sealBlock (Vector.replicate 16 v)) = true := by decide +kernel
  have bytes : ∀ v ∈ [0#8, 1#8, 2#8, 3#8], ∀ o : Fin 14, (sealBlock (Vector.replicate 16 v))[o.val] = v := by decide +kernel
  obtain ⟨v, hv, hn⟩ := four Config.layout.protoTagTracker Config.layout.protoProxReport Config.layout.protoProxReportExt
  obtain ⟨B, hB⟩ := exists_wire (sealBlock (Vector.replicate 16 v))
  refine ⟨holding B, ?_, ?_⟩
  · simp only [holding, State.withPkt_pkt, Memory.block_writeBlock, hB]; exact seals v hv
  · simp only [holding, State.withPkt_pkt, Memory.block_writeBlock, hB, bytes v hv Config.layout.offProto]; exact hn

/-- One word for each status, each answered as its last response. -/
theorem witness_StatusesComeFromTheirCommands :
    [0x1100000000000000#64, 0x5001000500001FA0#64, 0x0300000000000000#64, 0x0000000000000001#64, 0x0000000000000000#64].map
      (fun w => after (step (presenting [w])) (fun s => s.responses.map Response.status)) =
    [some [.crcFail], some [.cacheFull], some [.errOpcode], some [.errOperand], some [.ok]] := by decide

theorem witness_EveryCommandIsAnsweredOnce : (presenting [0#64]).pending = 0#64 :: [] := rfl

theorem witness_OnlyUpsertAndRxpktWriteTheCache :
    after (step (presenting [0x500A000700004E20#64])) (fun s => decide (s.cache ≠ State.reset.cache)) = some true ∧
    BitVec.ofNat 32 (1 : Fin Config.capacity).val ≠ 0#32 := by decide

theorem witness_OnlyFourCommandsWriteThePacket :
    after (step (presenting [0x0167000F00000000#64])) (fun s => decide (s.pkt.read 15 ≠ State.reset.pkt.read 15)) = some true := by decide

theorem witness_CacheCommandsIgnoreThePacket : (∃ id st t, Instr.upsert 1#16 2#8 3#32 = .upsert id st t) ∧
    ∃ idx, Instr.rdslot 8#16 = .rdslot idx := ⟨⟨_, _, _, rfl⟩, ⟨_, rfl⟩⟩

theorem witness_PacketCommandsIgnoreTheCache : [Instr.nop, .putb 16#16 1#8, .getb 15#16, .crc 16#8, .chk, .norm, .dec, .disp].all
    (fun i => i.opcode ∉ [0x50#8, 0x51#8, 0x60#8]) = true := by decide

theorem witness_ReadsRepeatAndPutbIsIdempotent : [Instr.nop, .getb 15#16, .rdslot 8#16, .crc 16#8, .chk, .disp].all
    (fun i => i.opcode ∈ [0x00#8, 0x02#8, 0x51#8, 0x10#8, 0x11#8, 0x40#8]) = true := by decide

theorem witness_StepKeepsThePacketCanonical : (presenting [0x0167000F00000000#64]).pktCanonical ∧
    after (step (presenting [0x0167000F00000000#64])) State.pkt = some [(15, 0x67#8)] := by
  unfold State.pktCanonical; decide

theorem witness_StepKeepsOnlyResetRecordsRepeating : onlyResetRecordsRepeat slotZeroHeld.cache ∧
    after (step { slotZeroHeld with pending := [0x5009000000004E20#64] }) (fun s => s.cache[1]) = some ⟨0#16, 9#8, 20000#32⟩ := by decide

theorem witness_StepKeepsIdsDistinct : idsDistinct fullCache ∧
    after (step { presenting [0x500103E700006DC1#64] with cache := fullCache }) (fun s => s.cache[0]) = some ⟨999#16, 1#8, 28097#32⟩ := by
  decide

theorem witness_MachineIsTheUnitAtItsConfiguration : (presenting [1#64]).pending = 1#64 :: [] ∧
    unitStep Config.record ⟨(presenting [1#64]).pkt, (presenting [1#64]).cache⟩ 1#64 =
      (⟨[], State.reset.cache⟩, ⟨.errOperand, 0#8, 0#16, 0#32⟩) := by decide

/-- Both sides of the capacity and of the tick width, both results of `upsert`, and a checksum that matches or not. -/
theorem witness_EveryConfigurationsUnit :
    ((Instr.rdslot 1#16).wellFormedFor smallConfig = true ∧ smallConfig.capacity ≤ (2#16 : Half).toNat ∧
      (1 : Fin smallConfig.capacity).val = (1#16 : Half).toNat) ∧
    (2 ^ smallConfig.tickW ≤ (65536#32 : Word32).toNat ∧ (65535#32 : Word32).toNat < 2 ^ smallConfig.tickW) ∧
    ((upsert (BitVec.ofNat smallConfig.tickW smallConfig.cutoff) smallUnit.cache 9#16 1#8 1100#16).2 = .cacheFull ∧
      (upsert (BitVec.ofNat smallConfig.tickW smallConfig.cutoff) smallUnit.cache 9#16 1#8 1101#16).2 = .slot 0) ∧
    (checksum (plainS9.toList.take 14) = (plainS9[14].setWidth 16 <<< 8) ||| plainS9[15].setWidth 16 ∧
      checksum (countBlock.toList.take 14) ≠ (countBlock[14].setWidth 16 <<< 8) ||| countBlock[15].setWidth 16) := by
  decide +kernel

end Sys2Proof.Machine
end

/-! PROOFS. The unit under every configuration (00_scope.md): what a command's own word does, and the two statements on the
configuration record. -/

namespace Sys2Proof.Machine

/-! Operands and the checksum verdict, in the numbers the statements use -/

/-- A tick operand is the `TICK_W`-bit number with its value (R61). -/
theorem tickOf_eq_ofNat (c : Configuration) (t : Word32) : tickOf c t = BitVec.ofNat c.tickW t.toNat :=
  (BitVec.ofNat_toNat _ _).symm

/-- R87 with R42's trailing field spelled out, high byte first. -/
theorem verify_eq_true_iff (B : Block) :
    verify B = true ↔ checksum (B.toList.take 14) = (B[14].setWidth 16 <<< 8) ||| B[15].setWidth 16 :=
  beq_iff_eq

/-- Writing a whole block leaves every address outside the buffer (R48). -/
theorem Memory.read_writeBlock_outside (m : Memory) (B : Block) {a : Nat} (ha : 16 ≤ a) : (m.writeBlock B).read a = m.read a := by
  rw [Memory.read_writeBlock, dif_neg (not_lt.2 ha)]

section Unit

variable {c : Configuration} (u : UnitState c)

/-! A command's own word -/

/-- The decoder reads a command's word as that command and only checks its operands (R61, R64). -/
theorem decodeFor_encode_eq_accept (c : Configuration) (i : Instr) : decodeFor c (encode i) = accept c true i := by
  cases i <;> simp [decodeFor, encode]

/-- Decoding takes back what encoding writes, under every configuration (R60, R61). -/
theorem decodeFor_encode {i : Instr} (hi : i.wellFormedFor c = true) : decodeFor c (encode i) = .command i := by
  rw [decodeFor_encode_eq_accept, accept, Bool.true_and, if_pos hi]

/-- A command whose operands are out of range refuses itself (R184). -/
theorem UnitState.command_of_illFormed {i : Instr} (hi : i.wellFormedFor c = false) :
    u.command i = u.raise .errOperand 0#8 0#16 0#32 := by
  cases i with
  | nop | chk | norm | dec | disp => cases hi
  | putb | getb | crc | upsert | rdslot | rxpkt => exact congrArg (UnitState.checked u · _) hi

/-- The unit on a command's word does what the command does, whether the operands are in range or not (R6). -/
theorem unitStep_encode (i : Instr) : unitStep c u (encode i) = u.command i := by
  rw [unitStep, decodeFor_encode_eq_accept]
  rcases accept_cases c true i with ⟨_, _, hacc⟩ | ⟨hz | hi, hacc⟩
  · rw [hacc]
  · cases hz
  · rw [hacc, u.command_of_illFormed hi]

/-- A command's word with operands out of range is refused, nothing else changed (R184). -/
theorem unitStep_encode_of_illFormed {i : Instr} (hi : i.wellFormedFor c = false) :
    unitStep c u (encode i) = (u, ⟨.errOperand, 0#8, 0#16, 0#32⟩) :=
  (unitStep_encode u i).trans (u.command_of_illFormed hi)

/-! What `RDSLOT`, `UPSERT` and `RXPKT` do in range -/

/-- `RDSLOT` on an index inside the table answers that slot (R145). -/
theorem UnitState.rdslot_of_lt {idx : Half} {i : Fin c.capacity} (hi : i.val = idx.toNat) :
    u.rdslot idx = (u, ⟨.ok, u.cache[i].strength, u.cache[i].id, u.cache[i].lastSeenTick.setWidth 32⟩) := by
  have hlt : idx.toNat < c.capacity := hi ▸ i.isLt
  have hslot : u.slotAt idx.toNat = u.cache[i] := by simp [UnitState.slotAt, ← hi]
  rw [UnitState.rdslot, (indexInCache_eq_true c idx).2 hlt, hslot]
  rfl

/-- The unit's `upsert` in the numbers of R130 and R132. -/
theorem UnitState.upserted_eq (id : Half) (strength : Byte) (tick : Word32) : u.upserted id strength tick =
    Machine.upsert (BitVec.ofNat c.tickW c.cutoff) u.cache id strength (BitVec.ofNat c.tickW tick.toNat) := by
  rw [UnitState.upserted, tickOf_eq_ofNat]
  rfl

section InRange

variable {u} {id : Half} {strength : Byte} {tick : Word32} {C : Cache c.tickW c.capacity} {i : Fin c.capacity}

/-- `UPSERT` that finds a slot leaves the new cache and answers the slot (R135). -/
theorem UnitState.upsert_of_slot (ht : tick.toNat < 2 ^ c.tickW) (hu : u.upserted id strength tick = (C, .slot i)) :
    u.upsert id strength tick = (u.withCache C, ⟨.ok, 0#8, 0#16, slotWord i⟩) := by
  rw [UnitState.upsert, (tickInRange_eq_true c tick).2 ht, hu]
  rfl

/-- `UPSERT` that finds no slot changes nothing (R135). -/
theorem UnitState.upsert_of_cacheFull (ht : tick.toNat < 2 ^ c.tickW) (hu : u.upserted id strength tick = (C, .cacheFull)) :
    u.upsert id strength tick = (u, ⟨.cacheFull, 0#8, 0#16, 0#32⟩) := by
  rw [UnitState.upsert, (tickInRange_eq_true c tick).2 ht, hu, UnitState.upserted_cacheFull hu]
  rfl

/-- `RXPKT` with a tick in range has its effect (R160). -/
theorem UnitState.rxpkt_of_lt (ht : tick.toNat < 2 ^ c.tickW) : u.rxpkt tick = u.receiveWith c.layout c.cipher tick := by
  rw [UnitState.rxpkt, (tickInRange_eq_true c tick).2 ht, UnitState.checked_true]

end InRange

section Receive

variable {u} {L : Layout} {dec : Block → Block} {B : Block} {tick : Word32} {C : Cache c.tickW c.capacity} {i : Fin c.capacity}

/-- Whatever the outcome, `RXPKT` leaves the plaintext in the buffer (R160). -/
theorem UnitState.receiveWith_pkt {v : UnitState c} {r : Response} (hx : u.receiveWith L dec tick = (v, r)) :
    v.pkt = u.pkt.writeBlock (plaintextOf dec u.pkt.block) := by
  have hv : (u.receiveWith L dec tick).1 = v := congrArg Prod.fst hx
  rw [← hv]
  rcases UnitState.receiveWith_cases L dec tick u with ⟨_, he⟩ | ⟨_, _, _, _, he⟩ | ⟨_, _, he⟩ <;> simp [he]

/-- `RXPKT` on a block that does not verify leaves the cache and answers both checksums (R160). -/
theorem UnitState.receiveWith_of_not_verify (hB : plaintextOf dec u.pkt.block = B) (hv : verify B = false) :
    u.receiveWith L dec tick = (u.withPkt (u.pkt.writeBlock B),
      ⟨.crcFail, 0#8, computedChecksum B, (carriedChecksum B).setWidth 32⟩) := by
  simp only [UnitState.receiveWith, hB, hv, Bool.false_eq_true, if_false]
  rfl

/-- `RXPKT` on a block that verifies and whose observation finds a slot (R160). -/
theorem UnitState.receiveWith_of_slot (hB : plaintextOf dec u.pkt.block = B) (hv : verify B = true)
    (hu : u.upserted (dispatch L B).oid (dispatch L B).trackerStrength tick = (C, .slot i)) :
    u.receiveWith L dec tick = ((u.withPkt (u.pkt.writeBlock B)).withCache C,
      ⟨.ok, (dispatch L B).trackerStrength, (dispatch L B).oid, slotWord i⟩) := by
  simp only [UnitState.receiveWith, hB, hv, if_true, hu]
  rfl

/-- `RXPKT` on a block that verifies and whose observation finds no slot leaves the cache (R160). -/
theorem UnitState.receiveWith_of_cacheFull (hB : plaintextOf dec u.pkt.block = B) (hv : verify B = true)
    (hu : u.upserted (dispatch L B).oid (dispatch L B).trackerStrength tick = (C, .cacheFull)) :
    u.receiveWith L dec tick = (u.withPkt (u.pkt.writeBlock B),
      ⟨.cacheFull, (dispatch L B).trackerStrength, (dispatch L B).oid, 0#32⟩) := by
  simp only [UnitState.receiveWith, hB, hv, if_true, hu, UnitState.upserted_cacheFull hu]
  rfl

end Receive

end Unit

/-- Settles O60: a command's word does what the command does (`unitStep_encode`), so each clause is the command's own rule. -/
theorem everyConfigurationsUnit : Obligations.EveryConfigurationsUnit := by
  intro c u refused
  refine ⟨fun i hi => ⟨decodeFor_encode hi, unitStep_encode u i⟩, fun h => ⟨fun hge => ?_, fun i hi => ?_⟩,
    fun h a t => ⟨fun hge => ?_, fun hlt C res hup => ?_⟩, fun t => ?_⟩
  · exact unitStep_encode_of_illFormed u ((indexInCache_eq_false c h).2 hge)
  · exact (unitStep_encode u _).trans (u.rdslot_of_lt hi)
  · exact unitStep_encode_of_illFormed u ((tickInRange_eq_false c t).2 hge)
  · rw [← u.upserted_eq] at hup
    constructor
    · rintro i rfl
      exact (unitStep_encode u _).trans (UnitState.upsert_of_slot hlt hup)
    · rintro rfl
      exact (unitStep_encode u _).trans (UnitState.upsert_of_cacheFull hlt hup)
  · intro B o computed carried
    refine ⟨fun hge => unitStep_encode_of_illFormed u ((tickInRange_eq_false c t).2 hge), fun hlt => ?_⟩
    have hB : plaintextOf c.cipher u.pkt.block = B := rfl
    rcases hx : u.receiveWith c.layout c.cipher t with ⟨v, r⟩
    have hpkt : v.pkt = u.pkt.writeBlock B := UnitState.receiveWith_pkt hx
    refine ⟨v, r, (unitStep_encode u (.rxpkt t)).trans ((UnitState.rxpkt_of_lt hlt).trans hx), ?_, fun x hx16 => ?_, fun hne => ?_,
      fun heq C res hup => ?_⟩
    · rw [hpkt, Memory.block_writeBlock]
    · rw [hpkt, Memory.read_writeBlock_outside _ _ hx16]
    · have hv : verify B = false := Bool.eq_false_iff.2 (mt (verify_eq_true_iff B).1 hne)
      obtain ⟨rfl, rfl⟩ := Prod.mk.inj (hx.symm.trans (UnitState.receiveWith_of_not_verify hB hv))
      exact ⟨u.withPkt_cache _, rfl⟩
    · have hv : verify B = true := (verify_eq_true_iff B).2 heq
      rw [← u.upserted_eq] at hup
      constructor
      · rintro i rfl
        obtain ⟨rfl, rfl⟩ := Prod.mk.inj (hx.symm.trans (UnitState.receiveWith_of_slot hB hv hup))
        exact ⟨rfl, rfl⟩
      · rintro rfl
        obtain ⟨rfl, rfl⟩ := Prod.mk.inj (hx.symm.trans (UnitState.receiveWith_of_cacheFull hB hv hup))
        exact ⟨u.withPkt_cache _, rfl⟩

/-- Running a word on this machine is the unit's step at `Config.record`, its response recorded (R6, R180). -/
theorem runWord_eq_performs (w : Word) (s : State) :
    runWord w s = .next (s.performs (fun u => unitStep Config.record u w)) := by
  have hd : decode w = decodeFor Config.record w := rfl
  rcases runWord_cases w s with ⟨hv, he⟩ | ⟨hv, he⟩ | ⟨i, hv, he⟩
  all_goals rw [hd] at hv; simp only [he, unitStep, hv]
  · rfl
  · rfl
  · exact exec_eq_performs s i

/-- Settles O59: the word is taken and run (`step_eq_runWord`), and running it is the unit's step (`runWord_eq_performs`). -/
theorem machineIsTheUnitAtItsConfiguration : Obligations.MachineIsTheUnitAtItsConfiguration := by
  refine ⟨fun s w rest u r hpending hunit => ?_, rfl, rfl, rfl⟩
  have hunit' : unitStep Config.record (State.unit { s with pending := rest }) w = (u, r) := hunit
  rw [step_eq_runWord hpending, runWord_eq_performs, State.performs, hunit']
  rfl

end Sys2Proof.Machine

/-! PROOFS. The state of the unit (10_state.md): which commands read and write `PKT` and `CACHE`, what a step that changes one of
them ran, and the reset state. -/

namespace Sys2Proof.Machine

/-! The command word that changed the unit -/

/-- A word is accepted as a command only with its must-be-zero fields zero (R62). -/
theorem accept_eq_command {c : Configuration} {zeros : Bool} {i j : Instr} (h : accept c zeros j = .command i) :
    zeros = true ∧ j = i := by
  rcases accept_cases c zeros j with ⟨hz, _, hj⟩ | ⟨_, hj⟩
  · exact ⟨hz, Verdict.command.inj (hj.symm.trans h)⟩
  · cases hj.symm.trans h

/-- A word that decodes to a command is that command's own word: the operands are its fields, the other fields are zero (R62, R64). -/
theorem encode_of_decodeFor {c : Configuration} {w : Word} {i : Instr} (h : decodeFor c w = .command i) : encode i = w := by
  rw [← packWord_fields w]
  simp only [decodeFor, ite_eq_iff, reduceCtorEq, and_false, or_false] at h
  rcases h with ⟨hop, h⟩ | ⟨_, ⟨hop, h⟩ | ⟨_, ⟨hop, h⟩ | ⟨_, ⟨hop, h⟩ | ⟨_, ⟨hop, h⟩ | ⟨_, ⟨hop, h⟩ | ⟨_, ⟨hop, h⟩ | ⟨_, ⟨hop, h⟩ |
    ⟨_, ⟨hop, h⟩ | ⟨_, ⟨hop, h⟩ | ⟨_, hop, h⟩⟩⟩⟩⟩⟩⟩⟩⟩⟩
  all_goals
    obtain ⟨hz, rfl⟩ := accept_eq_command h
    simp only [Bool.and_eq_true, beq_iff_eq] at hz
    simp [encode, hop, hz]

/-- The opcode field of a command's word is the opcode of R63. -/
@[simp] theorem opField_encode (i : Instr) : opField (encode i) = i.opcode := by
  cases i <;> exact opField_packWord _ _ _ _

/-- All that the unit can do with a word: refuse it with nothing changed (R183, R184), or carry out the command it encodes. -/
theorem unitStep_cases (c : Configuration) (u : UnitState c) (w : Word) :
    (unitStep c u w).1 = u ∨ ∃ i, encode i = w ∧ unitStep c u w = u.command i := by
  unfold unitStep
  cases h : decodeFor c w with
  | noCommand => exact .inl rfl
  | illFormed => exact .inl rfl
  | command i => exact .inr ⟨i, encode_of_decodeFor h, rfl⟩

/-- A step that changes `PKT` or `CACHE` took a command's word from the port and carried that command out. -/
theorem step_changing_unit {s u : State} (h : step s = .next u) (hne : u.unit ≠ s.unit) :
    ∃ i rest, s.pending = encode i :: rest ∧ u = State.performs { s with pending := rest } (UnitState.command i) := by
  rcases step_cases s with ⟨_, hs⟩ | ⟨w, rest, hp, hs⟩
  · cases hs.symm.trans h
    exact absurd rfl hne
  · rw [runWord_eq_performs] at hs
    obtain rfl := Host.Outcome.next.inj (hs.symm.trans h)
    rcases unitStep_cases Config.record s.unit w with hsame | ⟨i, rfl, hi⟩
    · exact absurd hsame hne
    · refine ⟨i, rest, hp, ?_⟩
      have hi' : unitStep Config.record (State.unit { s with pending := rest }) (encode i) =
        UnitState.command i (State.unit { s with pending := rest }) := hi
      rw [State.performs, hi']
      rfl

section Unit

variable {c : Configuration} (u : UnitState c)

/-! Commands that leave the unit as it is -/

/-- `CHK` changes nothing, and answers both checksums whatever the verdict (R86). -/
theorem UnitState.chk_eq : u.chk = (u, ⟨if verify u.pkt.block then .ok else .crcFail, 0#8, computedChecksum u.pkt.block,
    (carriedChecksum u.pkt.block).setWidth 32⟩) := by
  unfold UnitState.chk
  cases verify u.pkt.block <;> rfl

/-- A checked command whose effect leaves the unit leaves it, refused or not. -/
theorem UnitState.checked_state (b : Bool) {e : UnitState c × Response} (he : e.1 = u) : (u.checked b e).1 = u := by
  cases b with
  | true => exact he
  | false => rfl

/-- `RDSLOT` changes nothing (R145). -/
theorem UnitState.rdslot_state (idx : Half) : (u.rdslot idx).1 = u :=
  u.checked_state _ rfl

/-! Commands that do not use one part of the unit commute with replacing it -/

/-- A raised status and its fields do not depend on the unit. -/
theorem UnitState.raise_map (g : UnitState c → UnitState c) (st : Status) (a : Byte) (h : Half) (t : Word32) :
    (g u).raise st a h t = (u.raise st a h t).map g id :=
  rfl

/-- The operand check commutes with a change of the unit with which the effect commutes. -/
theorem UnitState.checked_map (g : UnitState c → UnitState c) (b : Bool) (e : UnitState c × Response) :
    (g u).checked b (e.map g id) = (u.checked b e).map g id := by
  cases b with
  | true => rfl
  | false => exact u.raise_map g _ _ _ _

/-- Writing `PKT` and answering `OK` commutes with replacing `CACHE`. -/
theorem UnitState.withPkt_respondOk_withCache (m : Memory) (C : Cache c.tickW c.capacity) (a : Byte) (h : Half) (t : Word32) :
    ((u.withCache C).withPkt m).respondOk a h t = ((u.withPkt m).respondOk a h t).map (·.withCache C) id :=
  rfl

/-- `UPSERT` neither reads nor writes `PKT` (R20). -/
theorem UnitState.upsert_withPkt (m : Memory) (oid : Half) (strength : Byte) (tick : Word32) :
    (u.withPkt m).upsert oid strength tick = (u.upsert oid strength tick).map (·.withPkt m) id := by
  have hup : (u.withPkt m).upserted oid strength tick = u.upserted oid strength tick := rfl
  rw [UnitState.upsert, UnitState.upsert, ← UnitState.checked_map, hup]
  rcases u.upserted oid strength tick with ⟨C, k | _⟩ <;> rfl

/-- `RDSLOT` neither reads nor writes `PKT` (R20). -/
theorem UnitState.rdslot_withPkt (m : Memory) (idx : Half) :
    (u.withPkt m).rdslot idx = (u.rdslot idx).map (·.withPkt m) id := by
  rw [UnitState.rdslot, UnitState.rdslot, ← UnitState.checked_map]
  rfl

/-- Apart from `UPSERT`, `RXPKT` and `RDSLOT` no command reads or writes `CACHE` (R24). -/
theorem UnitState.command_withCache {i : Instr} (hi : i.opcode ∉ [0x50#8, 0x51#8, 0x60#8])
    (C : Cache c.tickW c.capacity) : (u.withCache C).command i = (u.command i).map (·.withCache C) id := by
  cases i with
  | nop | disp => rfl
  | norm | dec => exact u.withPkt_respondOk_withCache _ _ _ _ _
  | putb idx byte => exact u.checked_map (·.withCache C) _ ((u.withPkt (u.pkt.write idx.toNat byte)).respondOk 0#8 0#16 0#32)
  | getb idx => exact u.checked_map (·.withCache C) _ (u.respondOk (u.pkt.read idx.toNat) 0#16 0#32)
  | crc len => exact u.checked_map (·.withCache C) _ (u.respondOk 0#8 (checksum (u.pkt.readList 0 len.toNat)) 0#32)
  | chk =>
    rw [UnitState.command, UnitState.command, UnitState.chk_eq, UnitState.chk_eq]
    rfl
  | upsert | rdslot | rxpkt => simp [Instr.opcode] at hi

/-- Apart from `UPSERT`, `RXPKT` and `RDSLOT` every command leaves `CACHE` (R24). -/
theorem UnitState.command_cache {i : Instr} (hi : i.opcode ∉ [0x50#8, 0x51#8, 0x60#8]) : (u.command i).1.cache = u.cache :=
  congrArg (·.1.cache) (u.command_withCache hi u.cache)

/-! The slot a command writes -/

/-- `e` leaves the cache of `u` but for one slot, whose tick is now `tick`, and answers `OK` with that slot in the field `t`. -/
def UnitState.WritesAnsweredSlot (u : UnitState c) (tick : Word32) (e : UnitState c × Response) : Prop :=
  ∃ (k : Fin c.capacity) (oid : Half) (strength : Byte), e.1.cache = u.cache.set k ⟨oid, strength, tickOf c tick⟩ ∧ e.2.status = .ok ∧ e.2.t = slotWord k

variable {u}

/-- An `upsert` that changes the cache writes the whole record into the slot it returns (R133, R140). -/
theorem UnitState.upserted_changing {oid : Half} {strength : Byte} {tick : Word32} {C : Cache c.tickW c.capacity}
    {k : Fin c.capacity} (hu : u.upserted oid strength tick = (C, .slot k)) (hne : C ≠ u.cache) :
    C = u.cache.set k ⟨oid, strength, tickOf c tick⟩ := by
  unfold UnitState.upserted at hu
  rcases upsert_cases (cutoffTickOf c) u.cache oid strength (tickOf c tick) with
    ⟨j, _, _, _, he⟩ | ⟨j, _, _, _, he⟩ | ⟨j, _, _, _, he⟩ | ⟨_, _, he⟩
  all_goals cases he.symm.trans hu
  · rfl
  · exact absurd rfl hne
  · rfl

/-- `UPSERT` changes the cache only in the slot it answers (R135). -/
theorem UnitState.upsert_changing_cache {oid : Half} {strength : Byte} {tick : Word32}
    (hne : (u.upsert oid strength tick).1.cache ≠ u.cache) : u.WritesAnsweredSlot tick (u.upsert oid strength tick) := by
  rcases UnitState.upsert_command_cases oid strength tick u with ⟨_, he⟩ | ⟨C, k, _, hu, he⟩ | ⟨_, _, he⟩
  all_goals rw [he] at hne ⊢
  · exact absurd rfl hne
  · exact ⟨k, oid, strength, UnitState.upserted_changing hu hne, rfl, rfl⟩
  · exact absurd rfl hne

/-- `RXPKT` changes the cache only in the slot it answers (R160). -/
theorem UnitState.rxpkt_changing_cache {tick : Word32} (hne : (u.rxpkt tick).1.cache ≠ u.cache) :
    u.WritesAnsweredSlot tick (u.rxpkt tick) := by
  unfold UnitState.rxpkt at hne ⊢
  rcases u.checked_cases (u.receiveWith c.layout c.cipher tick) (tickInRange c tick) with ⟨_, hx⟩ | ⟨_, hx⟩
  all_goals rw [hx] at hne ⊢
  · rcases UnitState.receiveWith_cases c.layout c.cipher tick u with ⟨_, he⟩ | ⟨C, k, _, hu, he⟩ | ⟨_, _, he⟩
    all_goals rw [he] at hne ⊢
    · simp at hne
    · exact ⟨k, _, _, UnitState.upserted_changing hu hne, rfl, rfl⟩
    · simp at hne
  · exact absurd rfl hne

/-- A command that changes the cache is `UPSERT` or `RXPKT` and changes it only in the slot it answers, whose tick is the field `t` of
its word (R24, R140). -/
theorem UnitState.command_changing_cache {i : Instr} (hne : (u.command i).1.cache ≠ u.cache) :
    (i.opcode = 0x50#8 ∨ i.opcode = 0x60#8) ∧ u.WritesAnsweredSlot (tField (encode i)) (u.command i) := by
  by_cases hi : i.opcode ∉ [0x50#8, 0x51#8, 0x60#8]
  · exact absurd (u.command_cache hi) hne
  · cases i with
    | upsert oid strength tick =>
      rw [encode, tField_packWord]
      exact ⟨.inl rfl, UnitState.upsert_changing_cache hne⟩
    | rxpkt tick =>
      rw [encode, tField_packWord]
      exact ⟨.inr rfl, UnitState.rxpkt_changing_cache hne⟩
    | rdslot idx => exact absurd (congrArg UnitState.cache (u.rdslot_state idx)) hne
    | nop | putb | getb | crc | chk | norm | dec | disp => simp [Instr.opcode] at hi

variable (u)

/-! The bytes a command writes -/

/-- Apart from `PUTB`, `NORM`, `DEC` and `RXPKT` every command leaves `PKT` (R20). -/
theorem UnitState.command_pkt {i : Instr} (hi : i.opcode ∉ [0x01#8, 0x20#8, 0x30#8, 0x60#8]) : (u.command i).1.pkt = u.pkt := by
  cases i with
  | nop | disp => rfl
  | getb | crc => exact congrArg UnitState.pkt (u.checked_state _ rfl)
  | chk => rw [UnitState.command, UnitState.chk_eq]
  | upsert oid strength tick => exact congrArg (·.1.pkt) (u.upsert_withPkt u.pkt oid strength tick)
  | rdslot idx => exact congrArg UnitState.pkt (u.rdslot_state idx)
  | putb | norm | dec | rxpkt => simp [Instr.opcode] at hi

/-- No command writes an address outside the sixteen bytes (R48, R173). -/
theorem UnitState.command_pkt_read_outside (i : Instr) {a : Nat} (ha : 16 ≤ a) : (u.command i).1.pkt.read a = u.pkt.read a := by
  by_cases hi : i.opcode ∉ [0x01#8, 0x20#8, 0x30#8, 0x60#8]
  · rw [u.command_pkt hi]
  · cases i with
    | putb idx byte =>
      simp only [UnitState.command, UnitState.putb]
      cases hb : indexInBuffer idx with
      | false => rfl
      | true =>
        have hlt : idx.toNat < 16 := (indexInBuffer_eq_true idx).1 hb
        exact Memory.read_write_other u.pkt byte (hlt.trans_le ha).ne
    | norm =>
      rw [UnitState.command, UnitState.norm, UnitState.respondOk_state, UnitState.withPkt_pkt]
      exact Memory.read_writeBlock_outside _ _ ha
    | dec =>
      rw [UnitState.command, UnitState.dec, UnitState.decryptWith, UnitState.respondOk_state, UnitState.withPkt_pkt]
      exact Memory.read_writeBlock_outside _ _ ha
    | rxpkt tick =>
      simp only [UnitState.command, UnitState.rxpkt]
      cases tickInRange c tick with
      | false => rfl
      | true =>
        rw [UnitState.checked_true, UnitState.receiveWith_pkt (Prod.eta _).symm]
        exact Memory.read_writeBlock_outside _ _ ha
    | nop | getb | crc | chk | disp | upsert | rdslot => simp [Instr.opcode] at hi

end Unit

/-! The same for this machine's state -/

/-- A command that commutes with replacing the unit's buffer commutes with replacing the machine's. -/
theorem State.withPkt_performs {s : State} {m : Memory} {f : UnitState Config.record → UnitState Config.record × Response}
    (hf : f (s.unit.withPkt m) = (f s.unit).map (·.withPkt m) id) : (s.withPkt m).performs f = (s.performs f).withPkt m := by
  have hf' : f (s.withPkt m).unit = (f s.unit).map (·.withPkt m) id := hf
  rw [State.performs, hf']
  rfl

/-- A command that commutes with replacing the unit's cache commutes with replacing the machine's. -/
theorem State.withCache_performs {s : State} {C : Cache Config.tickW Config.capacity}
    {f : UnitState Config.record → UnitState Config.record × Response}
    (hf : f (s.unit.withCache C) = (f s.unit).map (·.withCache C) id) :
    (s.withCache C).performs f = (s.performs f).withCache C := by
  have hf' : f (s.withCache C).unit = (f s.unit).map (·.withCache C) id := hf
  rw [State.performs, hf']
  rfl

/-- After reset every slot is `(0, 0, 0)` (R33). -/
@[simp] theorem State.reset_slot (i : Fin Config.capacity) : State.reset.cache[i] = BeaconRecord.zero Config.tickW :=
  Vector.getElem_replicate i.isLt

/-! The statements -/

/-- Settles O54: the empty buffer reads as reset contents, and every slot is the reset record. -/
theorem resetClearsPacketAndCache : Obligations.ResetClearsPacketAndCache := by
  refine ⟨Memory.read_nil, fun i => ?_⟩
  rw [State.reset_slot]
  exact ⟨rfl, rfl, rfl⟩

/-- Settles O55: the empty buffer is canonical, and every slot is the reset record. -/
theorem resetMeetsTheInvariants : Obligations.ResetMeetsTheInvariants :=
  ⟨Memory.wf_nil, fun _ j _ _ => State.reset_slot j⟩

/-- Settles O51: both commands commute with replacing the buffer; with the buffer replaced by itself, that it is left. -/
theorem cacheCommandsIgnoreThePacket : Obligations.CacheCommandsIgnoreThePacket := by
  intro i s m hi
  have hcomm (m : Memory) : (s.unit.withPkt m).command i = (s.unit.command i).map (·.withPkt m) id := by
    rcases hi with ⟨oid, strength, tick, rfl⟩ | ⟨idx, rfl⟩
    · exact s.unit.upsert_withPkt m oid strength tick
    · exact s.unit.rdslot_withPkt m idx
  refine ⟨_, exec_eq_performs s i, congrArg (·.1.pkt) (hcomm s.pkt), ?_⟩
  rw [exec_eq_performs, State.withPkt_performs (hcomm m)]

/-- Settles O52: each of these commands commutes with replacing the cache (`UnitState.command_withCache`). -/
theorem packetCommandsIgnoreTheCache : Obligations.PacketCommandsIgnoreTheCache := by
  intro i s C hi
  refine ⟨_, exec_eq_performs s i, s.unit.command_cache hi, ?_⟩
  rw [exec_eq_performs, State.withCache_performs (s.unit.command_withCache hi C)]

/-- Settles O50: the step ran a command (`step_changing_unit`), and only the four write a byte, inside the buffer. -/
theorem onlyFourCommandsWriteThePacket : Obligations.OnlyFourCommandsWriteThePacket := by
  intro s u a hstep hread
  obtain ⟨i, rest, hp, rfl⟩ := step_changing_unit hstep fun hunit => hread (congrArg (fun v => v.pkt.read a) hunit)
  refine ⟨?_, encode i, rest, hp, ?_⟩
  · by_contra ha
    exact hread (s.unit.command_pkt_read_outside i (not_lt.1 ha))
  · rw [opField_encode]
    by_contra hi
    exact hread (congrArg (·.read a) (s.unit.command_pkt hi))

/-- Settles O49: the step ran a command (`step_changing_unit`), and a command writes only the slot it answers. -/
theorem onlyUpsertAndRxpktWriteTheCache : Obligations.OnlyUpsertAndRxpktWriteTheCache := by
  intro s u hstep hne
  obtain ⟨i, rest, hp, rfl⟩ := step_changing_unit hstep fun hunit => hne (congrArg UnitState.cache hunit)
  obtain ⟨hop, k, oid, strength, hcache, hstatus, ht⟩ := UnitState.command_changing_cache (u := s.unit) hne
  have hslot (j : Fin Config.capacity) : (s.unit.command i).1.cache[j] =
      if k = j then ⟨oid, strength, tField (encode i)⟩ else s.cache[j] := by
    rw [hcache, tickOf_record]
    exact Cache.get_set s.cache k j _
  refine ⟨encode i, rest, (s.unit.command i).2, k, hp, by rwa [opField_encode], rfl, hstatus, ht, ?_, fun j hj => ?_⟩
  · exact congrArg BeaconRecord.lastSeenTick ((hslot k).trans (if_pos rfl))
  · have hkj : k ≠ j := fun hkj => hj (hkj ▸ ht.symm)
    exact (hslot j).trans (if_neg hkj)

end Sys2Proof.Machine

/-! PROOFS. The packet buffer as memory (20_memory.md): what a command can store there, the canonical form every step keeps, and which
commands may be repeated. -/

namespace Sys2Proof.Machine

section Unit

variable {c : Configuration} (u : UnitState c)

/-- `NORM` writes the normalized block (R100, R101). -/
theorem UnitState.norm_pkt : u.norm.1.pkt = u.pkt.writeBlock (normalizeBlock u.pkt.block) := by
  rw [UnitState.norm, UnitState.respondOk_state, UnitState.withPkt_pkt]

/-- `DEC` writes the decrypted block (R114). -/
theorem UnitState.dec_pkt : u.dec.1.pkt = u.pkt.writeBlock (c.cipher u.pkt.block) := by
  rw [UnitState.dec, UnitState.decryptWith, UnitState.respondOk_state, UnitState.withPkt_pkt]

/-- All that a command can leave in `PKT`: what was there, one byte of the sixteen written, or a whole block written (R48). -/
theorem UnitState.command_pkt_cases (i : Instr) :
    (u.command i).1.pkt = u.pkt ∨
    (∃ a v, a < Config.pktSize ∧ (u.command i).1.pkt = u.pkt.write a v) ∨
    (∃ B, (u.command i).1.pkt = u.pkt.writeBlock B) := by
  by_cases hi : i.opcode ∉ [0x01#8, 0x20#8, 0x30#8, 0x60#8]
  · exact .inl (u.command_pkt hi)
  · cases i with
    | putb idx byte =>
      simp only [UnitState.command, UnitState.putb]
      cases hb : indexInBuffer idx with
      | true => exact .inr (.inl ⟨idx.toNat, byte, (indexInBuffer_eq_true idx).1 hb, rfl⟩)
      | false => exact .inl rfl
    | norm => exact .inr (.inr ⟨_, u.norm_pkt⟩)
    | dec => exact .inr (.inr ⟨_, u.dec_pkt⟩)
    | rxpkt tick =>
      simp only [UnitState.command, UnitState.rxpkt]
      cases tickInRange c tick with
      | true =>
        rw [UnitState.checked_true, UnitState.receiveWith_pkt (Prod.eta _).symm]
        exact .inr (.inr ⟨_, rfl⟩)
      | false => exact .inl rfl
    | nop | getb | crc | chk | disp | upsert | rdslot => simp [Instr.opcode] at hi

/-- Every command keeps the buffer canonical. -/
theorem UnitState.command_pkt_wf (i : Instr) (h : u.pkt.wf) : (u.command i).1.pkt.wf := by
  rcases u.command_pkt_cases i with he | ⟨a, v, ha, he⟩ | ⟨B, he⟩
  all_goals rw [he]
  · exact h
  · exact Memory.write_wf h ha v
  · exact Memory.writeBlock_wf h B

/-- The reading commands and `NOP` leave the whole unit as it is (R50). -/
theorem UnitState.command_state {i : Instr} (hi : i.opcode ∈ [0x00#8, 0x02#8, 0x51#8, 0x10#8, 0x11#8, 0x40#8]) :
    (u.command i).1 = u := by
  cases i with
  | nop | disp => rfl
  | getb | crc => exact u.checked_state _ rfl
  | rdslot idx => exact u.rdslot_state idx
  | chk => exact congrArg Prod.fst u.chk_eq
  | putb | norm | dec | upsert | rxpkt => simp [Instr.opcode] at hi

/-- What `PUTB` leaves at every address: its byte at its index if that is inside the buffer, and all else as before (R171). -/
theorem UnitState.read_putb (idx : Half) (byte : Byte) (a : Nat) :
    (u.putb idx byte).1.pkt.read a = if idx.toNat < 16 ∧ idx.toNat = a then byte else u.pkt.read a := by
  unfold UnitState.putb
  cases hb : indexInBuffer idx with
  | true =>
    have hlt : idx.toNat < 16 := (indexInBuffer_eq_true idx).1 hb
    simp [hlt, Memory.read_write]
  | false =>
    have hge : 16 ≤ idx.toNat := (indexInBuffer_eq_false idx).1 hb
    simp [hge.not_gt]

/-- A second equal `PUTB` changes no byte: the first has stored its byte already, or both are refused (R50). -/
theorem UnitState.read_putb_twice (idx : Half) (byte : Byte) (a : Nat) :
    ((u.putb idx byte).1.putb idx byte).1.pkt.read a = (u.putb idx byte).1.pkt.read a := by
  rw [UnitState.read_putb (u.putb idx byte).1, UnitState.read_putb u]
  split <;> rfl

end Unit

/-- A command that leaves the unit adds its response and nothing else. -/
theorem exec_eq_answer {i : Instr} {s : State} (h : (s.unit.command i).1 = s.unit) :
    exec i s = .next (s.answer (s.unit.command i).2) := by
  rw [exec_eq_performs, State.performs, h]
  rfl

/-- Settles O56: a step that changes the unit carried out a command, and a command writes one byte of the sixteen or a block. -/
theorem stepKeepsThePacketCanonical : Obligations.StepKeepsThePacketCanonical := by
  intro s u hs hstep
  by_cases hunit : u.unit = s.unit
  · have hpkt : u.pkt = s.pkt := congrArg UnitState.pkt hunit
    rwa [State.pktCanonical, hpkt]
  · obtain ⟨i, rest, _, rfl⟩ := step_changing_unit hstep hunit
    exact s.unit.command_pkt_wf i hs

/-- Settles O53: a reading command leaves the unit, so its repetition meets the same unit; and `PUTB` twice reads as once. -/
theorem readsRepeatAndPutbIsIdempotent : Obligations.ReadsRepeatAndPutbIsIdempotent := by
  constructor
  · intro i s hi
    have hsame : (s.unit.command i).1 = s.unit := s.unit.command_state hi
    exact ⟨_, exec_eq_answer hsame, exec_eq_answer (s := s.answer _) hsame⟩
  · intro s idx byte
    exact ⟨_, _, exec_eq_performs s _, exec_eq_performs _ _, s.unit.read_putb_twice idx byte⟩

end Sys2Proof.Machine

/-! PROOFS. The command words (30_encoding.md): decoding and encoding take each other back, decoding follows the opcode map, and the
pseudo-instructions `LDPKT` and `RDPKT`. -/

namespace Sys2Proof

/-! The opcode map, field by field -/

/-- A masked comparison of words is one of each of the four fields (R60, R63). -/
theorem and_eq_iff_fields (w m p : Word) : w &&& m = p ↔
    opField w &&& opField m = opField p ∧ aField w &&& aField m = aField p ∧ hField w &&& hField m = hField p ∧
      tField w &&& tField m = tField p := by
  simp only [opField, aField, hField, tField, ← BitVec.extractLsb'_and]
  constructor
  · rintro rfl
    exact ⟨rfl, rfl, rfl, rfl⟩
  · rintro ⟨hop, ha, hh, ht⟩
    calc w &&& m = packWord (opField (w &&& m)) (aField (w &&& m)) (hField (w &&& m)) (tField (w &&& m)) := (packWord_fields _).symm
      _ = packWord (opField p) (aField p) (hField p) (tField p) := by rw [opField, aField, hField, tField, hop, ha, hh, ht]; rfl
      _ = p := packWord_fields p

/-- A row of the opcode map that fixes `op` and wants zero the operand bits of three field masks. -/
def OpRow.ofFields (op aMask : Byte) (hMask : Half) (tMask : Word32) : OpRow :=
  ⟨op, packWord op 0#8 0#16 0#32, packWord (.allOnes 8) aMask hMask tMask⟩

/-- The opcode map of R63 with its masks written field by field. -/
theorem opcodeMap_eq : opcodeMap =
    [ .ofFields 0x00#8 (.allOnes 8) (.allOnes 16) (.allOnes 32),
      .ofFields 0x01#8 0#8 (BitVec.allOnes 16 <<< 4) (.allOnes 32),
      .ofFields 0x02#8 (.allOnes 8) (BitVec.allOnes 16 <<< 4) (.allOnes 32),
      .ofFields 0x10#8 (BitVec.allOnes 8 <<< 5) (.allOnes 16) (.allOnes 32),
      .ofFields 0x11#8 (.allOnes 8) (.allOnes 16) (.allOnes 32),
      .ofFields 0x20#8 (.allOnes 8) (.allOnes 16) (.allOnes 32),
      .ofFields 0x30#8 (.allOnes 8) (.allOnes 16) (.allOnes 32),
      .ofFields 0x40#8 (.allOnes 8) (.allOnes 16) (.allOnes 32),
      .ofFields 0x50#8 0#8 0#16 0#32,
      .ofFields 0x51#8 (.allOnes 8) (BitVec.allOnes 16 <<< 3) (.allOnes 32),
      .ofFields 0x60#8 (.allOnes 8) (.allOnes 16) 0#32 ] := by
  decide

/-- A word matches such a row when its `op` is the row's and the masked operand bits are zero (R63). -/
theorem OpRow.matches_ofFields (w : Word) (op aMask : Byte) (hMask : Half) (tMask : Word32) :
    w &&& (OpRow.ofFields op aMask hMask tMask).mask = (OpRow.ofFields op aMask hMask tMask).pattern ↔
      opField w = op ∧ aField w &&& aMask = 0#8 ∧ hField w &&& hMask = 0#16 ∧ tField w &&& tMask = 0#32 := by
  simp only [OpRow.ofFields, and_eq_iff_fields, opField_packWord, aField_packWord, hField_packWord, tField_packWord,
    BitVec.and_allOnes]

/-- The bits from `k` up are zero exactly in the numbers below `2 ^ k`. -/
theorem and_highMask_eq_zero_iff {n : Nat} (x : BitVec n) (k : Nat) :
    x &&& (BitVec.allOnes n <<< k) = 0#n ↔ x.toNat < 2 ^ k := by
  constructor
  · intro h
    refine Nat.lt_pow_two_of_testBit _ fun i hki => ?_
    by_cases hi : i < n
    · have hbit : (x &&& (BitVec.allOnes n <<< k)).getLsbD i = false := by rw [h, BitVec.getLsbD_zero]
      change x.getLsbD i = false
      simpa [hi, hki.not_gt] using hbit
    · exact BitVec.getLsbD_of_ge x i (not_lt.1 hi)
  · intro h
    ext i hi
    by_cases hki : i < k
    · simp [hki]
    · have hx : x.getLsbD i = false := Nat.testBit_lt_two_pow (h.trans_le (Nat.pow_le_pow_right two_pos (not_lt.1 hki)))
      simp [← BitVec.getLsbD_eq_getElem, hx]

/-- What R63's masks want of the four fields of a word. -/
theorem matchesRow_iff_fields (w : Word) : (∃ r ∈ opcodeMap, w &&& r.mask = r.pattern) ↔
    (opField w = 0x00#8 ∧ aField w = 0#8 ∧ hField w = 0#16 ∧ tField w = 0#32) ∨
    (opField w = 0x01#8 ∧ (hField w).toNat < 16 ∧ tField w = 0#32) ∨
    (opField w = 0x02#8 ∧ aField w = 0#8 ∧ (hField w).toNat < 16 ∧ tField w = 0#32) ∨
    (opField w = 0x10#8 ∧ (aField w).toNat < 32 ∧ hField w = 0#16 ∧ tField w = 0#32) ∨
    (opField w = 0x11#8 ∧ aField w = 0#8 ∧ hField w = 0#16 ∧ tField w = 0#32) ∨
    (opField w = 0x20#8 ∧ aField w = 0#8 ∧ hField w = 0#16 ∧ tField w = 0#32) ∨
    (opField w = 0x30#8 ∧ aField w = 0#8 ∧ hField w = 0#16 ∧ tField w = 0#32) ∨
    (opField w = 0x40#8 ∧ aField w = 0#8 ∧ hField w = 0#16 ∧ tField w = 0#32) ∨
    opField w = 0x50#8 ∨
    (opField w = 0x51#8 ∧ aField w = 0#8 ∧ (hField w).toNat < 8 ∧ tField w = 0#32) ∨
    (opField w = 0x60#8 ∧ aField w = 0#8 ∧ hField w = 0#16) := by
  simp only [opcodeMap_eq, List.mem_cons, List.not_mem_nil, or_false, exists_eq_or_imp, exists_eq_left, OpRow.matches_ofFields,
    BitVec.and_allOnes, BitVec.and_zero, and_highMask_eq_zero_iff, true_and, and_true, Nat.reducePow]

/-- `op` is fixed by every row, so a matching word has the row's `op` (R63). -/
theorem opField_of_matches {r : OpRow} (hr : r ∈ opcodeMap) {w : Word} (h : w &&& r.mask = r.pattern) : opField w = r.op := by
  have hrow : ∀ r ∈ opcodeMap, opField r.mask = BitVec.allOnes 8 ∧ opField r.pattern = r.op := by decide
  obtain ⟨hmask, hpattern⟩ := hrow r hr
  have hop := ((and_eq_iff_fields w r.mask r.pattern).1 h).1
  rwa [hmask, hpattern, BitVec.and_allOnes] at hop

/-- The eleven `op` values are different (R64). -/
theorem opcodeMap_op_nodup : (opcodeMap.map OpRow.op).Nodup := by
  decide

/-- A word that matches a row is the word of a command: no field is ignored (R62). -/
theorem exists_encode_of_matches {r : OpRow} (hr : r ∈ opcodeMap) {w : Word} (h : w &&& r.mask = r.pattern) :
    ∃ i, encode i = w := by
  rw [← packWord_fields w]
  rcases (matchesRow_iff_fields w).1 ⟨r, hr, h⟩ with ⟨hop, ha, hh, ht⟩ | ⟨hop, _, ht⟩ | ⟨hop, ha, _, ht⟩ | ⟨hop, _, hh, ht⟩ |
    ⟨hop, ha, hh, ht⟩ | ⟨hop, ha, hh, ht⟩ | ⟨hop, ha, hh, ht⟩ | ⟨hop, ha, hh, ht⟩ | hop | ⟨hop, ha, _, ht⟩ | ⟨hop, ha, hh⟩
  · exact ⟨.nop, by rw [hop, ha, hh, ht, encode]⟩
  · exact ⟨.putb (hField w) (aField w), by rw [hop, ht, encode]⟩
  · exact ⟨.getb (hField w), by rw [hop, ha, ht, encode]⟩
  · exact ⟨.crc (aField w), by rw [hop, hh, ht, encode]⟩
  · exact ⟨.chk, by rw [hop, ha, hh, ht, encode]⟩
  · exact ⟨.norm, by rw [hop, ha, hh, ht, encode]⟩
  · exact ⟨.dec, by rw [hop, ha, hh, ht, encode]⟩
  · exact ⟨.disp, by rw [hop, ha, hh, ht, encode]⟩
  · exact ⟨.upsert (hField w) (aField w) (tField w), by rw [hop, encode]⟩
  · exact ⟨.rdslot (hField w), by rw [hop, ha, ht, encode]⟩
  · exact ⟨.rxpkt (tField w), by rw [hop, ha, hh, encode]⟩

/-- A word is in the opcode map when it matches a row and meets the extra condition (R63). -/
theorem inOpcodeMap_iff (w : Word) :
    inOpcodeMap w = true ↔ (∃ r ∈ opcodeMap, w &&& r.mask = r.pattern) ∧ extraCondition w = true := by
  simp [inOpcodeMap]

/-- The opcode map takes a command's word exactly when the operands are in range: masks and extra conditions together are
the operand conditions (R61, R63). -/
theorem inOpcodeMap_encode (i : Instr) : inOpcodeMap (encode i) = true ↔ i.wellFormed = true := by
  rw [inOpcodeMap_iff, matchesRow_iff_fields]
  cases i with
  | nop | putb | getb | chk | norm | dec | disp | upsert | rdslot | rxpkt =>
    simp [encode, extraCondition, Instr.wellFormed, Instr.wellFormedFor]
  | crc len =>
    have hlen : len.toNat ≤ 16 → len.toNat < 32 := fun h => by omega
    simpa [encode, extraCondition, Instr.wellFormed, Instr.wellFormedFor] using hlen

end Sys2Proof

namespace Sys2Proof.Machine

/-- A word decodes to a command exactly when it is the word of that command with its operands in range (R60, R62). -/
theorem decode_eq_command_iff {w : Word} {i : Instr} : decode w = .command i ↔ encode i = w ∧ i.wellFormed = true := by
  constructor
  · intro h
    obtain rfl := encode_of_decodeFor h
    rw [decode, decodeFor_encode_eq_accept] at h
    rcases accept_cases Config.record true i with ⟨_, hi, _⟩ | ⟨_, hill⟩
    · exact ⟨rfl, hi⟩
    · cases hill.symm.trans h
  · rintro ⟨rfl, hi⟩
    exact decodeFor_encode hi

/-- The opcode map takes a word exactly when the decoder reads a command from it (R63, R64). -/
theorem inOpcodeMap_iff_decode (w : Word) : inOpcodeMap w = true ↔ ∃ i, decode w = .command i := by
  simp only [decode_eq_command_iff]
  constructor
  · intro h
    obtain ⟨⟨r, hr, hmatch⟩, _⟩ := (inOpcodeMap_iff w).1 h
    obtain ⟨i, rfl⟩ := exists_encode_of_matches hr hmatch
    exact ⟨i, rfl, (inOpcodeMap_encode i).1 h⟩
  · rintro ⟨i, rfl, hi⟩
    exact (inOpcodeMap_encode i).2 hi

/-- The decoder finds no command exactly when `op` is in no row of the opcode map (R64). -/
theorem decode_eq_noCommand_iff (w : Word) : decode w = .noCommand ↔ opField w ∉ opcodeMap.map OpRow.op := by
  have haccept (zeros : Bool) (i : Instr) : accept Config.record zeros i ≠ .noCommand := by
    rcases accept_cases Config.record zeros i with ⟨_, _, h⟩ | ⟨_, h⟩ <;> simp [h]
  simp [decode, decodeFor, ite_eq_iff, haccept, opcodeMap]

/-! The pseudo-instructions (R68) -/

/-- A list of commands whose first one goes on. -/
theorem execAll_cons {i : Instr} {s u : State} (h : exec i s = .next u) (l : List Instr) : execAll (i :: l) s = execAll l u := by
  rw [execAll, h]

/-- An address of the buffer fits the 16-bit index operand (R48, R60). -/
theorem toNat_bufferIndex {a : Nat} (ha : a < 16) : (BitVec.ofNat 16 a).toNat = a :=
  BitVec.toNat_ofNat a 16 ▸ Nat.mod_eq_of_lt (by omega)

/-- `PUTB` inside the buffer stores its byte and answers `OK` (R171). -/
theorem exec_putb_of_lt (s : State) {a : Nat} (ha : a < 16) (byte : Byte) :
    exec (.putb (BitVec.ofNat 16 a) byte) s = .next ((s.withPkt (s.pkt.write a byte)).answer ⟨.ok, 0#8, 0#16, 0#32⟩) := by
  have hidx : (BitVec.ofNat 16 a).toNat = a := toNat_bufferIndex ha
  have hin : indexInBuffer (BitVec.ofNat 16 a) = true := by rwa [indexInBuffer_eq_true, hidx]
  change execPutb _ _ s = _
  rw [execPutb_eq, if_pos hin, hidx]

/-- `GETB` inside the buffer answers the byte and changes nothing (R172). -/
theorem UnitState.getb_of_lt {c : Configuration} (u : UnitState c) {a : Nat} (ha : a < 16) :
    u.getb (BitVec.ofNat 16 a) = (u, ⟨.ok, u.pkt.read a, 0#16, 0#32⟩) := by
  have hidx : (BitVec.ofNat 16 a).toNat = a := toNat_bufferIndex ha
  have hin : indexInBuffer (BitVec.ofNat 16 a) = true := by rwa [indexInBuffer_eq_true, hidx]
  rw [UnitState.getb, hin, hidx]
  rfl

/-- One `PUTB` for each byte of a list, the first at index `a`, index ascending. -/
def putbs (a : Nat) (vs : List Byte) : List Instr := (vs.zipIdx a).map fun p => .putb (BitVec.ofNat 16 p.2) p.1

theorem putbs_cons (a : Nat) (v : Byte) (vs : List Byte) :
    putbs a (v :: vs) = .putb (BitVec.ofNat 16 a) v :: putbs (a + 1) vs := rfl

/-- `LDPKT` is one `PUTB` for each byte of the block, from index 0 (R68). -/
theorem ldpkt_eq_putbs (B : Block) : ldpkt B = putbs 0 B.toList := by
  apply List.ext_getElem
  · simp [ldpkt, putbs]
  · intro k _ _
    simp [ldpkt, putbs]

/-- `PUTB`s inside the buffer write their list of bytes and answer `OK` once for each. -/
theorem execAll_putbs (s : State) (a : Nat) (vs : List Byte) (h : a + vs.length ≤ 16) : execAll (putbs a vs) s =
    .next { s with pkt := s.pkt.writeList a vs,
                   responses := s.responses ++ List.replicate vs.length ⟨.ok, 0#8, 0#16, 0#32⟩ } := by
  induction vs generalizing s a with
  | nil => simp [putbs, execAll, Memory.writeList]
  | cons v vs ih =>
    rw [List.length_cons] at h
    rw [putbs_cons, execAll_cons (exec_putb_of_lt s (by omega) v), ih _ _ (by omega)]
    simp [Memory.writeList, List.replicate_succ, State.withPkt, State.answer]

/-- `LDPKT` writes the whole block and answers `OK` sixteen times (R68). -/
theorem execAll_ldpkt (s : State) (B : Block) : execAll (ldpkt B) s =
    .next { s with pkt := s.pkt.writeBlock B, responses := s.responses ++ List.replicate 16 ⟨.ok, 0#8, 0#16, 0#32⟩ } := by
  rw [ldpkt_eq_putbs, execAll_putbs s 0 B.toList (by simp), Vector.length_toList]
  rfl

/-- Commands that all leave the unit only add their responses, each given by the same unit. -/
theorem execAll_of_unit_kept (s : State) (l : List Instr) (h : ∀ i ∈ l, (s.unit.command i).1 = s.unit) :
    execAll l s = .next { s with responses := s.responses ++ l.map fun i => (s.unit.command i).2 } := by
  induction l generalizing s with
  | nil => simp [execAll]
  | cons i l ih =>
    obtain ⟨hi, hl⟩ := List.forall_mem_cons.1 h
    rw [execAll_cons (exec_eq_answer hi), ih (s.answer _) hl]
    simp

/-- `RDPKT` answers the sixteen bytes in order and changes nothing (R68). -/
theorem execAll_rdpkt (s : State) : execAll rdpkt s =
    .next { s with responses := s.responses ++ s.pkt.block.toList.map fun b => ⟨.ok, b, 0#16, 0#32⟩ } := by
  have hget {k : Nat} (hk : k < 16) : s.unit.command (.getb (BitVec.ofNat 16 k)) = (s.unit, ⟨.ok, s.pkt.read k, 0#16, 0#32⟩) :=
    s.unit.getb_of_lt hk
  have hbytes : rdpkt.map (fun i => (s.unit.command i).2) = s.pkt.block.toList.map fun b => ⟨.ok, b, 0#16, 0#32⟩ := by
    apply List.ext_getElem
    · simp [rdpkt]
    · intro k hk _
      have hk16 : k < 16 := by simpa [rdpkt] using hk
      simp [rdpkt, hget hk16]
  rw [execAll_of_unit_kept s rdpkt, hbytes]
  intro i hi
  obtain ⟨k, _, rfl⟩ := List.mem_map.1 hi
  rw [hget k.isLt]

/-! The statements -/

/-- Settles O1: the decoder takes back what the encoder writes (`decodeFor_encode`), one half of `decode_eq_command_iff`. -/
theorem decodeOfEncodeIsTheCommand : Obligations.DecodeOfEncodeIsTheCommand :=
  fun _ hi => decode_eq_command_iff.2 ⟨rfl, hi⟩

/-- Settles O2: the other half of `decode_eq_command_iff`, no field of the word being ignored (`encode_of_decodeFor`). -/
theorem encodeOfDecodeIsTheWord : Obligations.EncodeOfDecodeIsTheWord :=
  fun _ _ h => decode_eq_command_iff.1 h

/-- Settles O3: no row's `op` means no command, a word in the map is exactly one read as a command, and what is left is ill-formed;
two rows that match a word have its `op`, and the eleven are different. -/
theorem decodingFollowsTheOpcodeMap : Obligations.DecodingFollowsTheOpcodeMap := by
  intro w
  refine ⟨(decode_eq_noCommand_iff w).2, fun hop hmap => ?_, fun hmap => ?_, fun r hr r' hr' h h' => ?_⟩
  · cases hd : decode w with
    | noCommand => exact absurd hop ((decode_eq_noCommand_iff w).1 hd)
    | illFormed => rfl
    | command i => exact absurd ((inOpcodeMap_iff_decode w).2 ⟨i, hd⟩) (Bool.eq_false_iff.1 hmap)
  · obtain ⟨i, hd⟩ := (inOpcodeMap_iff_decode w).1 hmap
    obtain ⟨rfl, _⟩ := decode_eq_command_iff.1 hd
    exact ⟨i, hd, (opField_encode i).symm, rfl⟩
  · have hop : r.op = r'.op := (opField_of_matches hr h).symm.trans (opField_of_matches hr' h')
    exact List.inj_on_of_nodup_map opcodeMap_op_nodup hr hr' hop

/-- Settles O13: `LDPKT` is a whole-block write (`execAll_ldpkt`), and `RDPKT` only answers (`execAll_rdpkt`). -/
theorem loadedPacketReadsBack : Obligations.LoadedPacketReadsBack := by
  intro s B
  exact ⟨⟨_, execAll_ldpkt s B, Memory.block_writeBlock s.pkt B, fun _ ha => Memory.read_writeBlock_outside s.pkt B ha,
    rfl, rfl, rfl⟩, execAll_rdpkt s⟩

end Sys2Proof.Machine

/-! PROOFS. The checksum (40_checksum.md): a byte step is eight steps of the polynomial division, so it is linear, and injective in
the accumulator; from that the residue, the errors detected, and the commands `CRC` and `CHK`. -/

namespace Sys2Proof

/-! A 16-bit value and its two bytes (R10, R11) -/

/-- A 16-bit value is its high byte and its low byte. -/
theorem hi8_xor_lo8 (v : Half) : ((hi8 v).setWidth 16 <<< 8) ^^^ (lo8 v).setWidth 16 = v := by
  ext i hi
  by_cases h8 : i < 8
  · simp [lo8, h8, BitVec.getLsbD_eq_getElem hi]
  · have hsum : 8 + (i - 8) = i := by omega
    have hlt : i - 8 < 8 := by omega
    simp [lo8, hi8, h8, hsum, hlt, BitVec.getLsbD_eq_getElem hi]

/-- The high byte of a field read most significant byte first. -/
theorem hi8_be (x y : Byte) : hi8 ((x.setWidth 16 <<< 8) ||| y.setWidth 16) = x := by
  ext i hi
  have hsum : 8 + i < 16 := by omega
  simp [hi8, hsum, BitVec.getLsbD_eq_getElem hi]

/-- The low byte of a field read most significant byte first. -/
theorem lo8_be (x y : Byte) : lo8 ((x.setWidth 16 <<< 8) ||| y.setWidth 16) = y := by
  ext i hi
  have hi16 : i < 16 := by omega
  simp [lo8, hi, hi16]

end Sys2Proof

namespace Sys2Proof.Machine

/-! Linearity over exclusive-or (R89) -/

/-- `f` commutes with exclusive-or. -/
def XorLinear (f : Half → Half) : Prop := ∀ x y, f (x ^^^ y) = f x ^^^ f y

section XorLinear

variable {f g : Half → Half}

theorem XorLinear.comp (hg : XorLinear g) (hf : XorLinear f) : XorLinear (g ∘ f) := fun x y => by
  simp only [Function.comp_apply, hf x y, hg _ _]

theorem XorLinear.iterate (hf : XorLinear f) (n : Nat) : XorLinear f^[n] := by
  induction n with
  | zero => exact fun _ _ => rfl
  | succ n ih => exact ih.comp hf

/-- The exclusive-or of two linear functions is linear. -/
theorem XorLinear.xor (hf : XorLinear f) (hg : XorLinear g) : XorLinear fun x => f x ^^^ g x := fun x y => by
  simp only [hf x y, hg x y]
  ac_rfl

theorem xorLinear_id : XorLinear fun x => x := fun _ _ => rfl

theorem xorLinear_shiftLeft (n : Nat) : XorLinear (· <<< n) := fun x y => BitVec.shiftLeft_xor_distrib x y n

theorem xorLinear_ushiftRight (n : Nat) : XorLinear (· >>> n) := fun x y => BitVec.ushiftRight_xor_distrib x y n

theorem xorLinear_and (mask : Half) : XorLinear (· &&& mask) := fun x y => by
  ext i hi
  simp [Bool.and_xor_distrib_right]

end XorLinear

/-! One bit of the polynomial division (R88) -/

@[simp] theorem crcBit_zero : crcBit 0#16 = 0#16 := by decide

theorem crcBit_eq (x : Half) : crcBit x = (x <<< 1) ^^^ (if x.msb then 0x1021#16 else 0#16) := by
  unfold crcBit
  cases x.msb with
  | true => rfl
  | false => exact BitVec.xor_zero.symm

theorem xorLinear_crcBit : XorLinear crcBit := by
  have hcarry : XorLinear fun x => if x.msb then 0x1021#16 else 0#16 := fun x y => by
    cases hx : x.msb <;> cases hy : y.msb <;> simp [BitVec.msb_xor, hx, hy]
  exact funext crcBit_eq ▸ (xorLinear_shiftLeft 1).xor hcarry

/-- Only 0 goes to 0: the polynomial is odd, so a 1 shifted out leaves a 1 in bit 0. -/
theorem eq_zero_of_crcBit {x : Half} (h : crcBit x = 0#16) : x = 0#16 := by
  unfold crcBit at h
  split at h
  · have hbit : ((x <<< 1) ^^^ 0x1021#16).getLsbD 0 = false := by rw [h]; rfl
    simp at hbit
  · next hmsb =>
    have hlt : 2 * x.toNat < 2 ^ 16 := BitVec.msb_eq_false_iff_two_mul_lt.1 (Bool.eq_false_iff.2 hmsb)
    bv_omega

theorem crcBit_injective : Function.Injective crcBit := fun x y h =>
  BitVec.xor_eq_zero_iff.1 (eq_zero_of_crcBit (by rw [xorLinear_crcBit, h, BitVec.xor_self]))

@[simp] theorem iterate_crcBit_zero (n : Nat) : crcBit^[n] 0#16 = 0#16 := Function.iterate_fixed crcBit_zero n

/-! One byte (R80, R88) -/

/-- Steps 3 to 5 of R80, from the accumulator with the byte in it. -/
def crcMix (s2 : Half) : Half :=
  let s3 := s2 ^^^ ((s2 &&& 0x00FF#16) >>> 4)
  let s4 := s3 ^^^ (s3 <<< 12)
  s4 ^^^ ((s4 &&& 0x00FF#16) <<< 5)

theorem crcStep_eq (acc : Half) (b : Byte) : crcStep acc b = crcMix (((acc >>> 8) ||| (acc <<< 8)) ^^^ b.setWidth 16) := rfl

theorem xorLinear_crcMix : XorLinear crcMix :=
  have step3 := xorLinear_id.xor ((xorLinear_ushiftRight 4).comp (xorLinear_and 0x00FF#16))
  have step4 := xorLinear_id.xor (xorLinear_shiftLeft 12)
  have step5 := xorLinear_id.xor ((xorLinear_shiftLeft 5).comp (xorLinear_and 0x00FF#16))
  step5.comp (step4.comp step3)

/-- The byte exchange of step 1 is linear: its two shifts do not overlap. -/
theorem xorLinear_swapBytes : XorLinear fun acc => (acc >>> 8) ||| (acc <<< 8) := by
  have hxor (acc : Half) : (acc >>> 8) ||| (acc <<< 8) = (acc >>> 8) ^^^ (acc <<< 8) := by
    ext i hi
    by_cases h8 : i < 8
    · simp [h8]
    · have hge : 16 ≤ 8 + i := by omega
      simp [h8, BitVec.getLsbD_of_ge acc _ hge]
  exact funext hxor ▸ (xorLinear_ushiftRight 8).xor (xorLinear_shiftLeft 8)

/-- The step is linear in the accumulator and the byte together (R89). -/
theorem crcStep_xor (a1 a2 : Half) (b1 b2 : Byte) :
    crcStep (a1 ^^^ a2) (b1 ^^^ b2) = crcStep a1 b1 ^^^ crcStep a2 b2 := by
  simp only [crcStep_eq, ← xorLinear_crcMix _ _, xorLinear_swapBytes a1 a2, BitVec.setWidth_xor]
  congr 1
  ac_rfl

/-- The five steps and the eight divisions on one byte, in each of its three places: fed, and in either half of the
accumulator. -/
theorem crcStep_of_byte : ∀ b : Byte,
    crcStep 0#16 b = crcBit^[8] (b.setWidth 16 <<< 8) ∧
    crcStep (b.setWidth 16 <<< 8) 0#8 = crcBit^[8] (b.setWidth 16 <<< 8) ∧
    crcStep (b.setWidth 16) 0#8 = crcBit^[8] (b.setWidth 16) ∧ crcBit^[8] (b.setWidth 16) = b.setWidth 16 <<< 8 := by
  decide +kernel

/-- A byte step is eight steps of the division, the byte in the high half (R88): both are linear and agree on single bytes. -/
theorem crcStep_eq_iterate (acc : Half) (b : Byte) : crcStep acc b = crcBit^[8] (acc ^^^ (b.setWidth 16 <<< 8)) := by
  obtain ⟨hfed, _, _⟩ := crcStep_of_byte b
  obtain ⟨_, hhigh, _⟩ := crcStep_of_byte (hi8 acc)
  obtain ⟨_, _, hlow, _⟩ := crcStep_of_byte (lo8 acc)
  have hacc : crcStep acc 0#8 = crcBit^[8] acc := by
    conv => rw [← hi8_xor_lo8 acc, ← BitVec.xor_zero (x := 0#8), crcStep_xor, hhigh, hlow, ← xorLinear_crcBit.iterate]
  calc crcStep acc b = crcStep (acc ^^^ 0#16) (0#8 ^^^ b) := by rw [BitVec.xor_zero, BitVec.zero_xor]
    _ = crcBit^[8] (acc ^^^ (b.setWidth 16 <<< 8)) := by rw [crcStep_xor, hacc, hfed, xorLinear_crcBit.iterate]

theorem crcStep_zero_byte (acc : Half) : crcStep acc 0#8 = crcBit^[8] acc := by
  rw [crcStep_eq_iterate]
  simp

@[simp] theorem crcStep_zero : crcStep 0#16 0#8 = 0#16 := by
  rw [crcStep_zero_byte, iterate_crcBit_zero]

/-- For a fixed byte the step loses nothing of the accumulator (R89). -/
theorem crcStep_injective (b : Byte) : Function.Injective fun acc => crcStep acc b := fun x y h => by
  simp only [crcStep_eq_iterate] at h
  exact (BitVec.xor_left_inj _).1 (crcBit_injective.iterate 8 h)

/-- Feeding the two bytes of the accumulator, the high one first, clears it (R90): the first leaves the low byte, which eight
shifts bring into the high half, and the second cancels it there. -/
theorem crcStep_hi8_lo8 (v : Half) : crcStep (crcStep v (hi8 v)) (lo8 v) = 0#16 := by
  have hlow : v ^^^ ((hi8 v).setWidth 16 <<< 8) = (lo8 v).setWidth 16 := by
    conv => lhs; lhs; rw [← hi8_xor_lo8 v, BitVec.xor_comm]
    rw [BitVec.xor_assoc, BitVec.xor_self, BitVec.xor_zero]
  obtain ⟨_, _, _, hshift⟩ := crcStep_of_byte (lo8 v)
  rw [crcStep_eq_iterate v, hlow, hshift, crcStep_eq_iterate, BitVec.xor_self, iterate_crcBit_zero]

/-! Byte lists (R81, R89) -/

theorem crcFold_cons (acc : Half) (b : Byte) (L : List Byte) : crcFold acc (b :: L) = crcFold (crcStep acc b) L := rfl

theorem crcFold_append (acc : Half) (L M : List Byte) : crcFold acc (L ++ M) = crcFold (crcFold acc L) M :=
  List.foldl_append

theorem crcFold_injective (L : List Byte) : Function.Injective fun acc => crcFold acc L := by
  induction L with
  | nil => exact Function.injective_id
  | cons b L ih => exact ih.comp (crcStep_injective b)

/-- The fold is linear in the accumulator and a list of one length together (R89). -/
theorem crcFold_xor (a d : Half) {A B : List Byte} (h : A.length = B.length) :
    crcFold (a ^^^ d) (xorBytes A B) = crcFold a A ^^^ crcFold d B := by
  induction A generalizing B a d with
  | nil =>
    obtain rfl := List.length_eq_zero_iff.1 h.symm
    rfl
  | cons x A ih =>
    obtain ⟨y, B, rfl⟩ := List.exists_cons_of_length_eq_add_one h.symm
    have hlen : A.length = B.length := Nat.succ.inj h
    rw [xorBytes, List.zipWith_cons_cons, crcFold_cons, crcStep_xor]
    exact ih _ _ hlen

/-- Zero bytes only shift the accumulator. -/
theorem crcFold_zeros (acc : Half) (k : Nat) : crcFold acc (List.replicate k 0#8) = crcBit^[8 * k] acc := by
  induction k generalizing acc with
  | zero => rfl
  | succ k ih => rw [List.replicate_succ, crcFold_cons, ih, crcStep_zero_byte, ← Function.iterate_add_apply, Nat.mul_succ]

theorem xorBytes_zeros (L : List Byte) : xorBytes L (List.replicate L.length 0#8) = L := by
  induction L with
  | nil => rfl
  | cons b L ih =>
    rw [xorBytes] at ih ⊢
    rw [List.length_cons, List.replicate_succ, List.zipWith_cons_cons, ih, BitVec.xor_zero]

/-- A difference in the accumulator is shifted by every further byte. -/
theorem crcFold_xor_acc (a d : Half) (L : List Byte) : crcFold (a ^^^ d) L = crcFold a L ^^^ crcBit^[8 * L.length] d := by
  conv => lhs; rw [← xorBytes_zeros L, crcFold_xor a d List.length_replicate.symm, crcFold_zeros]

/-- The exclusive-or of two lists has the checksum of the first, changed by the second folded from 0 (R89). -/
theorem checksum_xorBytes {A B : List Byte} (h : A.length = B.length) :
    checksum (xorBytes A B) = checksum A ^^^ crcFold 0#16 B := by
  rw [checksum, ← BitVec.xor_zero (x := Config.crcInit), crcFold_xor _ _ h]
  rfl

/-- The start value of the checksum counts as that of zero bytes (R89). -/
theorem checksum_eq_xor_zeros (L : List Byte) : checksum L = crcFold 0#16 L ^^^ checksum (List.replicate L.length 0#8) := by
  rw [checksum, ← BitVec.zero_xor (x := Config.crcInit), crcFold_xor_acc, ← crcFold_zeros]
  rfl

/-! The residue of an appended checksum (R90) -/

/-- Two bytes leave 0 exactly when they are the accumulator, high byte first. -/
theorem crcFold_hi8_lo8_eq_zero_iff (acc v : Half) : crcFold acc [hi8 v, lo8 v] = 0#16 ↔ acc = v := by
  have hv : crcFold v [hi8 v, lo8 v] = 0#16 := crcStep_hi8_lo8 v
  constructor
  · intro h
    exact crcFold_injective [hi8 v, lo8 v] (h.trans hv.symm)
  · rintro rfl
    exact hv

/-- A block is its fourteen covered bytes and the carried checksum, high byte first (R42). -/
theorem Block.toList_eq (B : Block) :
    B.toList = B.toList.take 14 ++ [hi8 (carriedChecksum B), lo8 (carriedChecksum B)] := by
  have hhi : hi8 (carriedChecksum B) = B[14] := hi8_be _ _
  have hlo : lo8 (carriedChecksum B) = B[15] := lo8_be _ _
  rw [hhi, hlo]
  apply List.ext_getElem
  · simp
  · intro k hk _
    have hk16 : k < 16 := by simpa using hk
    by_cases h14 : k < 14
    · simp [h14]
    · have hlast : k = 14 ∨ k = 15 := by omega
      rcases hlast with rfl | rfl <;> simp

/-- A block verifies exactly when its sixteen bytes leave 0 (R90). -/
theorem verify_iff_checksum_eq_zero (B : Block) : verify B = true ↔ checksum B.toList = 0#16 := by
  rw [Block.toList_eq, checksum, crcFold_append, crcFold_hi8_lo8_eq_zero_iff]
  exact beq_iff_eq

/-! One inverted bit (R91) -/

/-- What inverting a bit that `m` bits follow adds to the checksum: the residue of `x ^ (16 + m)` in the division (R88). -/
def bitResidue (m : Nat) : Half := crcBit^[m] 0x1021#16

theorem bitResidue_ne_zero (m : Nat) : bitResidue m ≠ 0#16 := fun h => by
  have hzero : (0x1021#16 : Half) = 0#16 := crcBit_injective.iterate m (h.trans (iterate_crcBit_zero m).symm)
  exact absurd hzero (by decide)

/-- The powers of `x` have a period of more than 127, so two bits of sixteen bytes never have the same residue. -/
theorem bitResidue_period : ∀ d < 128, crcBit^[d] 0x1021#16 = 0x1021#16 → d = 0 := by
  decide +kernel

theorem bitResidue_inj {m k : Nat} (hm : m < 128) (hk : k < 128) (h : bitResidue m = bitResidue k) : m = k := by
  have hmk := bitResidue_period (m - k) (by omega) (Function.iterate_cancel crcBit_injective h)
  have hkm := bitResidue_period (k - m) (by omega) (Function.iterate_cancel crcBit_injective h.symm)
  omega

/-- Bit `j` of a byte fed to a zero accumulator. -/
theorem crcStep_bit : ∀ j < 8, crcStep 0#16 (1#8 <<< j) = bitResidue j := by
  decide

/-- Inverting bit `j` of byte `k` changes the fold by a residue that depends on the bits after it only. -/
theorem crcFold_modify_bit (acc : Half) (L : List Byte) {k j : Nat} (hk : k < L.length) (hj : j < 8) :
    crcFold acc (L.modify k (· ^^^ (1#8 <<< j))) = crcFold acc L ^^^ bitResidue (8 * (L.length - 1 - k) + j) := by
  induction L generalizing acc k with
  | nil => simp at hk
  | cons b L ih =>
    cases k with
    | zero =>
      have hstep : crcStep acc (b ^^^ (1#8 <<< j)) = crcStep acc b ^^^ bitResidue j := by
        rw [← crcStep_bit j hj, ← crcStep_xor, BitVec.xor_zero]
      rw [List.modify_zero_cons, crcFold_cons, hstep, crcFold_xor_acc, bitResidue, ← Function.iterate_add_apply]
      rfl
    | succ k =>
      have hdist : (b :: L).length - 1 - (k + 1) = L.length - 1 - k := by simp; omega
      rw [List.modify_succ_cons, crcFold_cons, ih (crcStep acc b) (Nat.lt_of_succ_lt_succ hk), hdist, crcFold_cons]

/-- How many bits of a list of `n` bytes the division meets after bit `p`: in a byte it meets the high bit first (R88). -/
def bitsAfter (n p : Nat) : Nat := 8 * (n - 1 - p / 8) + p % 8

/-- An inverted bit changes the checksum by its residue (R91). -/
theorem checksum_flipBit (L : List Byte) {p : Nat} (hp : p < 8 * L.length) :
    checksum (flipBit L p) = checksum L ^^^ bitResidue (bitsAfter L.length p) :=
  crcFold_modify_bit _ L (by omega) (by omega)

theorem checksum_flipBit_ne (L : List Byte) {p : Nat} (hp : p < 8 * L.length) : checksum (flipBit L p) ≠ checksum L := by
  rw [checksum_flipBit L hp]
  simpa using bitResidue_ne_zero _

@[simp] theorem length_flipBit (L : List Byte) (p : Nat) : (flipBit L p).length = L.length := List.length_modify _ _ _

/-- Two bits of sixteen bytes change the checksum by different residues (R91). -/
theorem checksum_flipBit_flipBit_ne {L : List Byte} {p q : Nat} (hL : L.length = 16) (hpq : p < q) (hq : q < 128) :
    checksum (flipBit (flipBit L p) q) ≠ checksum L := by
  have hp' : p < 8 * L.length := by omega
  have hq' : q < 8 * (flipBit L p).length := by rw [length_flipBit]; omega
  rw [checksum_flipBit _ hq', length_flipBit, checksum_flipBit L hp', hL, BitVec.xor_assoc]
  intro h
  have hres : bitResidue (bitsAfter 16 p) = bitResidue (bitsAfter 16 q) := by simpa using h
  have hafter : bitsAfter 16 p = bitsAfter 16 q := bitResidue_inj (by unfold bitsAfter; omega) (by unfold bitsAfter; omega) hres
  unfold bitsAfter at hafter
  omega

/-- Inverting a bit of a block is inverting it in its bytes. -/
theorem toList_flipBlockBit (B : Block) (p : Fin 128) : (flipBlockBit B p).toList = flipBit B.toList p.val := by
  have hp : p.val / 8 < 16 := by omega
  rw [flipBlockBit, Vector.toList_set, flipBit, List.modify_eq_set]
  simp [hp]

/-! A command's words, as `runsAs` has them (R64, R184) -/

/-- Words of one `op` run as a command when the decoder accepts them for that command, and are refused when a must-be-zero field
or the command's own condition on its operands says so. -/
theorem runsAs_of_decode_eq_accept {op : Byte} {refusedWhen : Word → Prop} {zeros : Word → Bool} {i : Word → Instr}
    (hdecode : ∀ w, opField w = op → decode w = accept Config.record (zeros w) (i w))
    (hrefused : ∀ w, refusedWhen w ↔ zeros w = false ∨ (i w).wellFormed = false) : runsAs op refusedWhen i := by
  intro s w rest hpending hop
  rw [step_eq_runWord hpending, runWord, hdecode w hop, hrefused]
  rcases accept_cases Config.record (zeros w) (i w) with ⟨hz, hi, hacc⟩ | ⟨hno, hacc⟩
  all_goals rw [hacc]
  · have hwf : (i w).wellFormed = true := hi
    refine ⟨fun hno => ?_, fun _ => rfl⟩
    simp [hz, hwf] at hno
  · exact ⟨fun _ => rfl, fun hyes => absurd hno hyes⟩

theorem runsAs_crc :
    runsAs 0x10#8 (fun w => 16 < (aField w).toNat ∨ hField w ≠ 0#16 ∨ tField w ≠ 0#32) (fun w => .crc (aField w)) := by
  refine runsAs_of_decode_eq_accept (zeros := fun w => hField w == 0#16 && tField w == 0#32)
    (fun w hop => by simp [decode, decodeFor, hop]) fun w => ?_
  have hwf : (Instr.crc (aField w)).wellFormed = lengthInBuffer (aField w) := rfl
  rw [hwf, lengthInBuffer_eq_false, Bool.and_eq_false_iff, beq_eq_false_iff_ne, beq_eq_false_iff_ne, or_comm]

theorem runsAs_chk : runsAs 0x11#8 (fun w => aField w ≠ 0#8 ∨ hField w ≠ 0#16 ∨ tField w ≠ 0#32) (fun _ => .chk) := by
  refine runsAs_of_decode_eq_accept (zeros := fun w => aField w == 0#8 && hField w == 0#16 && tField w == 0#32)
    (fun w hop => by simp [decode, decodeFor, hop]) fun w => ?_
  have hwf : Instr.chk.wellFormed = true := rfl
  simp only [hwf, Bool.and_eq_false_iff, beq_eq_false_iff_ne, or_assoc, reduceCtorEq, or_false]

/-! What `CRC` and `CHK` answer (R85, R86) -/

theorem Memory.readList_zero (m : Memory) (n : Nat) : m.readList 0 n = (List.range n).map m.read := by
  simp [Memory.readList]

/-- `CRC` up to the whole buffer answers the checksum of its first bytes and changes nothing. -/
theorem exec_crc_of_le (s : State) {len : Byte} (h : len.toNat ≤ 16) :
    exec (.crc len) s = .next (s.answer ⟨.ok, 0#8, checksum ((List.range len.toNat).map s.pkt.read), 0#32⟩) := by
  change execCrc len s = _
  rw [execCrc_eq, (lengthInBuffer_eq_true len).2 h, if_pos rfl, Memory.readList_zero]

/-- `CRC` past the buffer is refused. -/
theorem exec_crc_of_gt (s : State) {len : Byte} (h : 16 < len.toNat) :
    exec (.crc len) s = .next (s.answer ⟨.errOperand, 0#8, 0#16, 0#32⟩) := by
  change execCrc len s = _
  rw [execCrc_eq, (lengthInBuffer_eq_false len).2 h]
  rfl

/-- The sixteen bytes of the buffer are its block. -/
theorem Memory.map_read_range_sixteen (m : Memory) : (List.range 16).map m.read = m.block.toList := by
  rw [← Memory.readList_zero, Memory.readList_eq_take m 16 le_rfl, List.take_of_length_le (by simp)]

/-- The checksum `CHK` computes, over the bytes of the buffer (R86). -/
theorem computedChecksum_block (m : Memory) : computedChecksum m.block = checksum ((List.range 14).map m.read) := by
  rw [computedChecksum, ← Memory.readList_eq_take m 14 (by decide), Memory.readList_zero]

/-- The checksum `CHK` finds carried, over the bytes of the buffer (R42, R86). -/
theorem carriedChecksum_block (m : Memory) :
    carriedChecksum m.block = ((m.read 14).setWidth 16 <<< 8) ||| (m.read 15).setWidth 16 := by
  rw [← m.block_get 14 (by decide), ← m.block_get 15 (by decide)]
  rfl

/-! The statements -/

/-- Settles O16: the five steps are eight steps of the division (`crcStep_eq_iterate`). -/
theorem crcStepIsThePolynomialStep : Obligations.CrcStepIsThePolynomialStep :=
  ⟨crcStep_eq_iterate, by decide⟩

/-- Settles O17: the step's linearity and injectivity, on a finite set of values; and the same lifted to lists. -/
theorem checksumIsLinear : Obligations.ChecksumIsLinear := by
  refine ⟨crcStep_xor, fun b => Finite.injective_iff_bijective.1 (crcStep_injective b), crcStep_zero, fun A B hlen => ?_⟩
  refine ⟨checksum_xorBytes hlen, ?_⟩
  calc checksum A ^^^ checksum B ^^^ checksum (xorBytes A B)
    _ = (checksum A ^^^ checksum A) ^^^ (crcFold 0#16 B ^^^ crcFold 0#16 B) ^^^ checksum (List.replicate B.length 0#8) := by
      rw [checksum_xorBytes hlen, checksum_eq_xor_zeros B]
      ac_rfl
    _ = checksum (List.replicate A.length 0#8) := by
      rw [BitVec.xor_self, BitVec.xor_self, BitVec.zero_xor, BitVec.zero_xor, hlen]

/-- Settles O18: two bytes clear the accumulator exactly when they are its own, high first (`crcFold_hi8_lo8_eq_zero_iff`). -/
theorem appendedChecksumLeavesResidueZero : Obligations.AppendedChecksumLeavesResidueZero := by
  refine ⟨fun M => ?_, verify_iff_checksum_eq_zero, fun k => ?_, by decide, by decide⟩
  · exact (crcFold_append _ M _).trans ((crcFold_hi8_lo8_eq_zero_iff _ _).2 rfl)
  · rw [crcFold_zeros, iterate_crcBit_zero]

/-- Settles O19: an inverted bit changes the checksum by the residue of a power of `x`, which is not 0 (`bitResidue_ne_zero`) and
differs from that of any other of the 128 bits (`bitResidue_inj`). -/
theorem singleAndDoubleBitErrorsAreDetected : Obligations.SingleAndDoubleBitErrorsAreDetected := by
  refine ⟨fun L _ hp => checksum_flipBit_ne L hp, fun A E hlen => ?_, fun _ _ _ => checksum_flipBit_flipBit_ne⟩
  rw [checksum_xorBytes hlen]
  exact xor_left_eq_self_iff

/-- Settles O20: the inverted bit changes the checksum of the sixteen bytes, which is 0 just on a block that verifies. -/
theorem oneInvertedBitFailsVerification : Obligations.OneInvertedBitFailsVerification := by
  intro B p hB
  rw [verify_iff_checksum_eq_zero] at hB
  rw [Bool.eq_false_iff, ne_eq, verify_iff_checksum_eq_zero, toList_flipBlockBit, ← hB]
  exact checksum_flipBit_ne B.toList (by simp)

/-- Settles O14: the answer of `CRC` in and out of range; over all sixteen bytes it is the residue of a block (R90). -/
theorem crcAnswersThePrefixChecksum : Obligations.CrcAnswersThePrefixChecksum := by
  refine ⟨runsAs_crc, fun s len => ⟨exec_crc_of_le s, exec_crc_of_gt s⟩, fun s => exec_crc_of_le s (by decide), fun s hs => ?_⟩
  have hzero : checksum ((List.range (16#8).toNat).map s.pkt.read) = 0#16 := by
    rw [← (verify_iff_checksum_eq_zero s.pkt.block).1 hs, ← Memory.map_read_range_sixteen]
    rfl
  rw [exec_crc_of_le s (by decide), hzero]
  rfl

/-- Settles O15: `CHK` answers both checksums and the verdict of `verify` (`execChk_eq`), here over the bytes of the buffer. -/
theorem chkComparesComputedWithCarried : Obligations.ChkComparesComputedWithCarried := by
  refine ⟨runsAs_chk, fun s => ?_⟩
  intro computed carried
  have hcomputed : computedChecksum s.pkt.block = computed := computedChecksum_block s.pkt
  have hcarried : carriedChecksum s.pkt.block = carried := carriedChecksum_block s.pkt
  have hchk : exec .chk s =
      .next (s.answer ⟨if computed = carried then .ok else .crcFail, 0#8, computed, carried.setWidth 32⟩) := by
    change execChk s = _
    simp only [execChk_eq, verify, hcomputed, hcarried, beq_iff_eq]
  rw [hchk]
  exact ⟨fun heq => by rw [if_pos heq]; rfl, fun hne => by rw [if_neg hne]; rfl⟩

end Sys2Proof.Machine

/-! PROOFS. The byte-order normalizer (41_normalizer.md): byte by byte it is an index permutation inside each group (R100), which is its
own inverse; from that the word view and the command `NORM`. -/

namespace Sys2Proof.Machine

/-! The permutation (R100) -/

/-- The index from which the normalizer takes byte `i`. -/
theorem getElem_normalizeBlock (B : Block) {i : Nat} (hi : i < 16) : (normalizeBlock B)[i] = B[4 * (i / 4) + (3 - i % 4)] := by
  rw [normalizeBlock, Vector.getElem_ofFn]

/-- R100's assignment: byte `k` of group `g` comes from byte `3 - k` of the same group. -/
theorem normalizeBlock_group (B : Block) {g k : Nat} (hg : g < 4) (hk : k < 4) :
    (normalizeBlock B)[4 * g + k] = B[4 * g + (3 - k)] := by
  have hdiv : (4 * g + k) / 4 = g := by omega
  have hmod : (4 * g + k) % 4 = k := by omega
  simp only [getElem_normalizeBlock, hdiv, hmod]

/-- Both closed forms of the permutation reverse the place inside the group and keep the group. -/
theorem permutedIndex_eq : ∀ i : Fin 16,
    (i.val &&& 0xC) ||| (3 - (i.val &&& 3)) = 4 * (i.val / 4) + (3 - i.val % 4) ∧
    i.val ^^^ 3 = 4 * (i.val / 4) + (3 - i.val % 4) := by
  decide

/-- The normalizer is its own inverse: reversing the place inside a group twice gives the place back (R102). -/
theorem normalizeBlock_involutive : Function.Involutive normalizeBlock := by
  intro B
  ext i hi : 1
  obtain ⟨g, k, hk, rfl⟩ : ∃ g k, k < 4 ∧ i = 4 * g + k := ⟨i / 4, i % 4, by omega, by omega⟩
  have hg : g < 4 := by omega
  have hplace : 3 - (3 - k) = k := by omega
  rw [normalizeBlock_group _ hg hk, normalizeBlock_group B hg (by omega)]
  simp only [hplace]

/-- A group of the normalized block, read least significant byte first, is the old group read most significant byte first (R104). -/
theorem groupLe_normalizeBlock (B : Block) (g : Fin 4) : groupLe (normalizeBlock B) g =
    B[4 * g.val] ++ B[4 * g.val + 1] ++ B[4 * g.val + 2] ++ B[4 * g.val + 3] := by
  have hbyte {k : Nat} (hk : k < 4) := normalizeBlock_group B g.isLt hk
  have hbyte0 : (normalizeBlock B)[4 * g.val] = B[4 * g.val + 3] := hbyte (k := 0) (by decide)
  have hbyte1 : (normalizeBlock B)[4 * g.val + 1] = B[4 * g.val + 2] := hbyte (by decide)
  have hbyte2 : (normalizeBlock B)[4 * g.val + 2] = B[4 * g.val + 1] := hbyte (by decide)
  have hbyte3 : (normalizeBlock B)[4 * g.val + 3] = B[4 * g.val] := hbyte (by decide)
  rw [groupLe, hbyte0, hbyte1, hbyte2, hbyte3]

/-! Words of the commands without operands (R61, R184) -/

/-- The word of a command without operands runs as that command when its three operand fields are zero, and is refused otherwise. -/
theorem runsAs_withoutOperands {i : Instr} (hi : i ∈ [Instr.nop, .chk, .norm, .dec, .disp]) :
    runsAs i.opcode (fun w => aField w ≠ 0#8 ∨ hField w ≠ 0#16 ∨ tField w ≠ 0#32) (fun _ => i) := by
  refine runsAs_of_decode_eq_accept (zeros := fun w => aField w == 0#8 && hField w == 0#16 && tField w == 0#32)
    (fun w hop => ?_) fun w => ?_
  · simp only [List.mem_cons, List.not_mem_nil, or_false] at hi
    rcases hi with rfl | rfl | rfl | rfl | rfl <;> simp [decode, decodeFor, hop, Instr.opcode]
  · have hwf : i.wellFormed = true := by
      revert i
      decide
    simp only [hwf, Bool.and_eq_false_iff, beq_eq_false_iff_ne, or_assoc, reduceCtorEq, or_false]

/-! What `NORM` leaves (R101, R102) -/

/-- `NORM` writes the normalized block and answers `OK`. -/
theorem exec_norm (s : State) : exec .norm s =
    .next ((s.withPkt (s.pkt.writeBlock (normalizeBlock s.pkt.block))).answer ⟨.ok, 0#8, 0#16, 0#32⟩) :=
  execNorm_eq s

/-- A buffer whose own block is written back over another one reads as it did. -/
theorem Memory.read_writeBlock_restored (m : Memory) (B : Block) (a : Nat) :
    ((m.writeBlock B).writeBlock m.block).read a = m.read a := by
  by_cases ha : a < 16
  · rw [Memory.read_writeBlock, dif_pos ha, m.block_get a ha]
  · have hout : 16 ≤ a := not_lt.1 ha
    rw [Memory.read_writeBlock_outside _ _ hout, Memory.read_writeBlock_outside _ _ hout]

/-- A canonical buffer whose own block is written back over another one is the same data (log entry 4). -/
theorem Memory.writeBlock_restored {m : Memory} (h : m.wf) (B : Block) : (m.writeBlock B).writeBlock m.block = m :=
  Memory.wf_ext (Memory.writeBlock_wf (Memory.writeBlock_wf h B) m.block) h (m.read_writeBlock_restored B)

/-- Two `NORM` commands write the buffer's own block back. -/
theorem execAll_norm_norm (s : State) : ∃ u : State, execAll [.norm, .norm] s = .next u ∧
    u.pkt = (s.pkt.writeBlock (normalizeBlock s.pkt.block)).writeBlock s.pkt.block := by
  rw [execAll_cons (exec_norm s), execAll_cons (exec_norm _), State.answer_pkt, State.withPkt_pkt, Memory.block_writeBlock,
    normalizeBlock_involutive]
  exact ⟨_, rfl, by rw [State.answer_pkt, State.withPkt_pkt]⟩

/-! The statements -/

/-- Settles O22: a byte of the new buffer is one of the new block inside the sixteen (R100), and the old byte outside. -/
theorem normReversesEachGroup : Obligations.NormReversesEachGroup := by
  refine ⟨runsAs_withoutOperands (i := .norm) (by decide), fun s =>
    ⟨_, exec_norm s, fun g k hg hk => ?_, fun a ha => ?_, by simp, by simp, by simp⟩⟩
  · have hnew : 4 * g + k < 16 := by omega
    have hold : 4 * g + (3 - k) < 16 := by omega
    rw [State.answer_pkt, State.withPkt_pkt, Memory.read_writeBlock, dif_pos hnew, normalizeBlock_group _ hg hk,
      Memory.block_get _ _ hold]
  · rw [State.answer_pkt, State.withPkt_pkt, Memory.read_writeBlock_outside _ _ ha]

/-- Settles O23: the involution (`normalizeBlock_involutive`) gives the bijection, and makes idempotence fail on any block the
normalizer changes; two `NORM` commands write the buffer's own block back. -/
theorem normalizeIsAnInvolution : Obligations.NormalizeIsAnInvolution := by
  refine ⟨normalizeBlock_involutive, normalizeBlock_involutive.bijective, ⟨(Vector.replicate 16 0#8).set 0 1#8, ?_⟩, fun s => ?_⟩
  · rw [normalizeBlock_involutive]
    decide
  · obtain ⟨u, hrun, hpkt⟩ := execAll_norm_norm s
    refine ⟨u, hrun, fun a => ?_, fun hs => ?_⟩
    · rw [hpkt, Memory.read_writeBlock_restored]
    · rw [hpkt, Memory.writeBlock_restored hs]

/-- Settles O24: the second reading is the first one of the normalized block (R102). -/
theorem normalizeInvertsWordEndianness : Obligations.NormalizeInvertsWordEndianness := by
  intro B g
  have hback := groupLe_normalizeBlock (normalizeBlock B) g
  rw [normalizeBlock_involutive] at hback
  exact ⟨groupLe_normalizeBlock B g, hback.symm⟩

/-- Settles O21: both closed forms of `j` are the index from which R100 takes byte `i`. -/
theorem normalizePermutesWithinGroups : Obligations.NormalizePermutesWithinGroups := by
  intro B i j hj
  obtain ⟨hmask, hxor⟩ := permutedIndex_eq i
  rw [hmask, hxor, or_self] at hj
  simp only [Fin.getElem_fin, getElem_normalizeBlock, hj]

end Sys2Proof.Machine

/-! PROOFS. The payload cipher (42_cipher.md): `DEC` writes the image of the block, so it is injective as the cipher is; the stand-ins
undo themselves byte by byte, and for `SUB32LE_K` because the bytes of the four groups and their numbers determine each other. -/

namespace Sys2Proof.Machine

/-! What `DEC` leaves (R114) -/

/-- `DEC` writes the decrypted block and answers `OK`. -/
theorem exec_dec (s : State) : exec .dec s =
    .next ((s.withPkt (s.pkt.writeBlock (Config.cipher s.pkt.block))).answer ⟨.ok, 0#8, 0#16, 0#32⟩) :=
  execDec_eq s

/-- The block `DEC` leaves is the cipher's image of the block it found. -/
theorem block_of_exec_dec {s u : State} (h : exec .dec s = .next u) : u.pkt.block = Config.cipher s.pkt.block := by
  obtain rfl := Host.Outcome.next.inj ((exec_dec s).symm.trans h)
  rw [State.answer_pkt, State.withPkt_pkt, Memory.block_writeBlock]

/-! Groups as least-significant-byte-first numbers (T3) -/

/-- A 32-bit number is its four bytes, the most significant one first. -/
theorem word32_eq_append_bytes (v : Word32) :
    v.extractLsb' 24 8 ++ v.extractLsb' 16 8 ++ v.extractLsb' 8 8 ++ v.extractLsb' 0 8 = v := by
  rw [BitVec.extractLsb'_append_extractLsb'_eq_extractLsb' (by rfl), BitVec.extractLsb'_append_extractLsb'_eq_extractLsb' (by rfl),
    BitVec.extractLsb'_append_extractLsb'_eq_extractLsb' (by rfl)]
  exact BitVec.extractLsb'_eq_self

/-- Byte `k` of group `g` is the `k`-th least significant byte of the group's number. -/
theorem ofGroupsLe_group (f : Fin 4 → Word32) (g : Fin 4) {k : Nat} (hk : k < 4) :
    (ofGroupsLe f)[4 * g.val + k] = (f g).extractLsb' (8 * k) 8 := by
  have hdiv : (4 * g.val + k) / 4 = g.val := by omega
  have hmod : (4 * g.val + k) % 4 = k := by omega
  simp only [ofGroupsLe, Vector.getElem_ofFn, hdiv, hmod]

/-- The `k`-th least significant byte of a group's number is the group's byte `k`. -/
theorem extractLsb'_groupLe (B : Block) (g : Fin 4) {k : Nat} (hk : k < 4) :
    (groupLe B g).extractLsb' (8 * k) 8 = B[4 * g.val + k] := by
  have habove {n : Nat} {hi : BitVec n} {lo : Byte} {start : Nat} : (hi ++ lo).extractLsb' (start + 8) 8 = hi.extractLsb' start 8 :=
    BitVec.extractLsb'_append_eq_of_le (Nat.le_add_left 8 start)
  match k, hk with
  | 0, _ => exact BitVec.extractLsb'_append_eq_right
  | 1, _ => exact habove.trans BitVec.extractLsb'_append_eq_right
  | 2, _ => exact habove.trans (habove.trans BitVec.extractLsb'_append_eq_right)
  | 3, _ => exact habove.trans (habove.trans (habove.trans BitVec.extractLsb'_eq_self))

/-- The groups of a block made from four numbers are those numbers. -/
theorem groupLe_ofGroupsLe (f : Fin 4 → Word32) (g : Fin 4) : groupLe (ofGroupsLe f) g = f g := by
  have hbyte {k : Nat} (hk : k < 4) := ofGroupsLe_group f g hk
  have hbyte0 : (ofGroupsLe f)[4 * g.val] = (f g).extractLsb' 0 8 := hbyte (k := 0) (by decide)
  have hbyte1 : (ofGroupsLe f)[4 * g.val + 1] = (f g).extractLsb' 8 8 := hbyte (by decide)
  have hbyte2 : (ofGroupsLe f)[4 * g.val + 2] = (f g).extractLsb' 16 8 := hbyte (by decide)
  have hbyte3 : (ofGroupsLe f)[4 * g.val + 3] = (f g).extractLsb' 24 8 := hbyte (by decide)
  rw [groupLe, hbyte0, hbyte1, hbyte2, hbyte3, word32_eq_append_bytes]

/-- A block is made from the numbers of its groups. -/
theorem ofGroupsLe_groupLe (B : Block) : ofGroupsLe (groupLe B) = B := by
  ext i hi : 1
  obtain ⟨g, k, hk, rfl⟩ : ∃ (g : Fin 4) (k : Nat), k < 4 ∧ i = 4 * g.val + k :=
    ⟨⟨i / 4, by omega⟩, i % 4, by omega, by simp only; omega⟩
  rw [ofGroupsLe_group _ g hk, extractLsb'_groupLe B g hk]

/-! The stand-ins are bijections (R115) -/

/-- Exclusive-or with the key twice gives the block back. -/
theorem xorK_dec_involutive : Function.Involutive StandIn.xorK.dec := by
  intro B
  ext i hi : 1
  simp only [StandIn.dec, Fin.getElem_fin, Vector.getElem_ofFn, BitVec.xor_assoc, BitVec.xor_self, BitVec.xor_zero]

/-- Decryption takes encryption back. -/
theorem StandIn.dec_enc (c : StandIn) (B : Block) : c.dec (c.enc B) = B := by
  cases c with
  | ident => rfl
  | xorK => exact xorK_dec_involutive B
  | sub32leK => simp only [StandIn.dec, StandIn.enc, groupLe_ofGroupsLe, BitVec.add_sub_cancel, ofGroupsLe_groupLe]

/-- Encryption takes decryption back. -/
theorem StandIn.enc_dec (c : StandIn) (B : Block) : c.enc (c.dec B) = B := by
  cases c with
  | ident => rfl
  | xorK => exact xorK_dec_involutive B
  | sub32leK => simp only [StandIn.dec, StandIn.enc, groupLe_ofGroupsLe, BitVec.sub_add_cancel, ofGroupsLe_groupLe]

/-- The zero block is its own normalization, so the two sides are the bytes of the negated key words in opposite orders. -/
theorem sub32leK_dec_not_commute_normalize : normalizeBlock (StandIn.sub32leK.dec (normalizeBlock (Vector.replicate 16 0#8))) ≠
    StandIn.sub32leK.dec (Vector.replicate 16 0#8) := by
  decide

/-! The statements -/

/-- Settles O25: `DEC` writes the image of the block (`exec_dec`), and two equal images come from one block, the cipher being a
bijection. -/
theorem decDecryptsTheBuffer : Obligations.DecDecryptsTheBuffer := by
  refine ⟨runsAs_withoutOperands (i := .dec) (by decide), fun s =>
    ⟨_, exec_dec s, block_of_exec_dec (exec_dec s), fun a ha => ?_, by simp, by simp, by simp⟩, fun s s' u u' hu hu' hblock => ?_⟩
  · rw [State.answer_pkt, State.withPkt_pkt, Memory.read_writeBlock_outside _ _ ha]
  · rw [block_of_exec_dec hu, block_of_exec_dec hu'] at hblock
    exact Config.cipher.injective hblock

/-- Settles O26: the inverses, stand-in by stand-in, and the zero block for `SUB32LE_K`. -/
theorem standInsAreBijections : Obligations.StandInsAreBijections :=
  ⟨fun c B => ⟨c.dec_enc B, c.enc_dec B⟩, _, sub32leK_dec_not_commute_normalize⟩

end Sys2Proof.Machine

/-! PROOFS. The protocol dispatcher (43_dispatcher.md): the strength of an observation is 3 on the two proximity variants and the raw
byte on every other one, named or not; `DISP` answers it, and `RXPKT` hands it on to the cache. -/

namespace Sys2Proof.Machine

/-! The observation (R120, R121) -/

/-- The variants whose strength is forced are the two proximity reports. -/
theorem isProximity_eq_true_iff (L : Layout) (proto : Byte) :
    isProximity L proto = true ↔ proto = L.protoProxReport ∨ proto = L.protoProxReportExt := by
  simp only [isProximity, Bool.or_eq_true, beq_iff_eq]

section Block

variable {L : Layout} {B : Block}

/-- A proximity report has the sentinel strength, whatever its strength byte (R125). -/
theorem dispatch_trackerStrength_of_proximity
    (h : B[L.offProto.val] = L.protoProxReport ∨ B[L.offProto.val] = L.protoProxReportExt) :
    (dispatch L B).trackerStrength = 3#8 :=
  if_pos ((isProximity_eq_true_iff L _).2 h)

/-- Every other variant keeps the raw strength byte, recognized or not (R124, R125). -/
theorem dispatch_trackerStrength_of_not_proximity
    (h : ¬ (B[L.offProto.val] = L.protoProxReport ∨ B[L.offProto.val] = L.protoProxReportExt)) :
    (dispatch L B).trackerStrength = B[L.offStrength.val] :=
  if_neg (mt (isProximity_eq_true_iff L _).1 h)

end Block

/-! The observation of a buffer, read byte by byte -/

section Buffer

variable (L : Layout) (m : Memory)

/-- The variant tag is the byte at its offset. -/
theorem dispatch_proto_block : (dispatch L m.block).proto = m.read L.offProto.val :=
  m.block_get _ _

/-- The tag identifier is the two bytes at its offset, most significant first (R42). -/
theorem dispatch_oid_block : (dispatch L m.block).oid =
    ((m.read L.offOid.val).setWidth 16 <<< 8) ||| (m.read (L.offOid.val + 1)).setWidth 16 := by
  simp only [dispatch, decodePacket, be16, Memory.block_get]

/-- Both cases of R121, on the bytes of the buffer. -/
theorem dispatch_trackerStrength_block : (dispatch L m.block).trackerStrength =
    if m.read L.offProto.val = L.protoProxReport ∨ m.read L.offProto.val = L.protoProxReportExt then 3#8
    else m.read L.offStrength.val := by
  split
  · next h => exact dispatch_trackerStrength_of_proximity (by rwa [Memory.block_get])
  · next h => rw [dispatch_trackerStrength_of_not_proximity (by rwa [Memory.block_get]), Memory.block_get]

end Buffer

/-! The statements -/

/-- Settles O27: `DISP` answers the observation of the buffer (`execDisp_eq`), whose three fields are read off its bytes. -/
theorem dispAnswersTheNormalizedObservation : Obligations.DispAnswersTheNormalizedObservation := by
  refine ⟨runsAs_withoutOperands (i := .disp) (by decide), fun s => (execDisp_eq s).trans ?_⟩
  rw [dispatch_trackerStrength_block, dispatch_oid_block, dispatch_proto_block]
  rfl

/-- Settles O44: a variant that is none of the three is no proximity report, so the strength handed to the cache is the raw byte; of
the three outcomes of `RXPKT` (`execRxpkt_cases`) the failed checksum is excluded, and `upsert` decides between the other two. -/
theorem unrecognizedVariantIsAccepted : Obligations.UnrecognizedVariantIsAccepted := by
  intro s tick L B hv hunrecognized
  have hraw : (dispatch L B).trackerStrength = B[L.offStrength.val] :=
    dispatch_trackerStrength_of_not_proximity fun hprox => hunrecognized (List.mem_cons_of_mem _ (by simpa using hprox))
  rcases execRxpkt_cases s tick with ⟨hfail, _⟩ | ⟨C, i, _, hup, hrun⟩ | ⟨_, hup, hrun⟩
  · exact absurd (hv.symm.trans hfail) (by decide)
  all_goals rw [hraw] at hup hrun
  · refine ⟨_, ⟨.ok, B[L.offStrength.val], (dispatch L B).oid, slotWord i⟩, hrun, ?_⟩
    simp [hup, slotWord, L, B]
  · refine ⟨_, ⟨.cacheFull, B[L.offStrength.val], (dispatch L B).oid, 0#32⟩, hrun, ?_⟩
    simp [hup, L, B]

/-- Settles O28: R125's two cases; the tag tracker's code is neither of the proximity codes (R9). -/
theorem proximityReportsGetStrengthThree : Obligations.ProximityReportsGetStrengthThree := by
  intro L B
  obtain ⟨htrackerReport, htrackerExt, _⟩ := L.codesDistinct
  refine ⟨dispatch_trackerStrength_of_proximity, fun hreport hext => ?_, fun htracker => ?_⟩
  · exact dispatch_trackerStrength_of_not_proximity (not_or.2 ⟨hreport, hext⟩)
  · exact dispatch_trackerStrength_of_not_proximity (not_or.2 ⟨htracker ▸ htrackerReport, htracker ▸ htrackerExt⟩)

end Sys2Proof.Machine

/-! PROOFS. The beacon cache (44_cache.md): staleness as unsigned arithmetic, what `upsert` answers once the slot its scans stop at is
known, the facts about ids that an `upsert`, and so a step, keeps, and the two cache commands. -/

namespace Sys2Proof.Machine

section Cache

variable {w n : Nat} {cutoff : BitVec w} {C : Cache w n} {id : Half} {s : Byte} {t : BitVec w}

/-! Staleness (R132, R138) -/

theorem threshold_toNat (cutoff t : BitVec w) : (threshold cutoff t).toNat = (t.toNat + 2 ^ w - cutoff.toNat) % 2 ^ w := by
  rw [threshold, BitVec.toNat_sub, Nat.add_comm t.toNat, Nat.sub_add_comm cutoff.isLt.le]

/-- From the cutoff on the threshold is the plain difference (R138). -/
theorem threshold_toNat_of_le (h : cutoff.toNat ≤ t.toNat) : (threshold cutoff t).toNat = t.toNat - cutoff.toNat :=
  BitVec.toNat_sub_of_le h

/-- Below the cutoff the threshold lies near the top of the range (R138). -/
theorem threshold_toNat_of_lt (h : t.toNat < cutoff.toNat) :
    (threshold cutoff t).toNat = 2 ^ w - cutoff.toNat + t.toNat := by
  have hcutoff := cutoff.isLt
  rw [threshold, BitVec.toNat_sub, Nat.mod_eq_of_lt (by omega)]

theorem stale_eq_true_iff {r : BeaconRecord w} :
    stale cutoff r t = true ↔ r.lastSeenTick.toNat < (threshold cutoff t).toNat :=
  decide_eq_true_iff

theorem stale_eq_false_iff {r : BeaconRecord w} :
    stale cutoff r t = false ↔ (threshold cutoff t).toNat ≤ r.lastSeenTick.toNat :=
  decide_eq_false_iff_not.trans not_lt

/-- A reset record is stale at every tick but the cutoff, where the threshold is 0 (R143 a). -/
theorem stale_zero_iff : stale cutoff (BeaconRecord.zero w) t = true ↔ t ≠ cutoff := by
  have hzero : (BeaconRecord.zero w).lastSeenTick.toNat = 0 := BitVec.toNat_zero
  rw [stale_eq_true_iff, hzero, BitVec.toNat_pos, BitVec.pos_iff_ne_zero]
  exact sub_ne_zero

section Ages

variable {r : BeaconRecord w} {T : BitVec w}

/-- The tick after `T`, where the counter does not wrap. -/
theorem toNat_tick_add_one (h : T.toNat + 1 < 2 ^ w) : (T + 1#w).toNat = T.toNat + 1 := by
  simp [BitVec.toNat_add, Nat.mod_eq_of_lt h]

/-- A record one tick old is fresh under a cutoff of at least 1. -/
theorem fresh_at_next_tick (hr : r.lastSeenTick = T) (hpos : 0 < cutoff.toNat) (hle : cutoff.toNat ≤ T.toNat + 1)
    (hwrap : T.toNat + 1 < 2 ^ w) : stale cutoff r (T + 1#w) = false := by
  have hnext := toNat_tick_add_one hwrap
  rw [stale_eq_false_iff, hr, threshold_toNat_of_le (by rwa [hnext]), hnext]
  omega

/-- A record `CUTOFF` ticks old is still fresh. -/
theorem fresh_at_cutoff (hr : r.lastSeenTick = T) : stale cutoff r (T + cutoff) = false := by
  rw [stale_eq_false_iff, hr, threshold, BitVec.add_sub_cancel]

/-- A record one tick older than `CUTOFF` is stale. -/
theorem stale_after_cutoff (hr : r.lastSeenTick = T) (hwrap : T.toNat + 1 < 2 ^ w) :
    stale cutoff r (T + cutoff + 1#w) = true := by
  have hback : T + cutoff + 1#w - cutoff = T + 1#w := by rw [add_right_comm, BitVec.add_sub_cancel]
  rw [stale_eq_true_iff, hr, threshold, hback, toNat_tick_add_one hwrap]
  exact Nat.lt_succ_self _

end Ages

theorem overwrites_eq_true_iff {r : BeaconRecord w} :
    overwrites cutoff r s t = true ↔ s.toNat ≤ r.strength.toNat ∨ stale cutoff r t = true := by
  rw [overwrites, Bool.or_eq_true, decide_eq_true_iff]

theorem overwrites_eq_false_iff {r : BeaconRecord w} :
    overwrites cutoff r s t = false ↔ r.strength.toNat < s.toNat ∧ stale cutoff r t = false := by
  rw [overwrites, Bool.or_eq_false_iff, decide_eq_false_iff_not, not_le]

/-! What `upsert` answers, by the slot its scans stop at (R133) -/

/-- A scan stops at one slot only. -/
theorem eq_of_first {p : Fin n → Prop} {i j : Fin n} (hi : p i) (hilow : ∀ k, k < i → ¬ p k) (hj : p j)
    (hjlow : ∀ k, k < j → ¬ p k) : i = j :=
  le_antisymm (not_lt.1 fun hlt => hilow j hlt hj) (not_lt.1 fun hlt => hjlow i hlt hi)

/-- Phase 1: the first slot that holds the id is the answer, and its record decides whether it is written. -/
theorem upsert_of_match {i : Fin n} (hid : C[i].id = id) (hlow : ∀ j : Fin n, j < i → C[j].id ≠ id) :
    upsert cutoff C id s t = (if overwrites cutoff C[i] s t then C.set i ⟨id, s, t⟩ else C, .slot i) := by
  rcases upsert_cases cutoff C id s t with ⟨k, hk, hklow, ho, he⟩ | ⟨k, hk, hklow, ho, he⟩ | ⟨_, hno, _⟩ | ⟨hno, _⟩
  · obtain rfl := eq_of_first (p := fun j => C[j].id = id) hid hlow hk hklow
    rw [he, ho, if_pos rfl]
  · obtain rfl := eq_of_first (p := fun j => C[j].id = id) hid hlow hk hklow
    rw [he, ho, if_neg Bool.false_ne_true]
  · exact absurd hid (hno i)
  · exact absurd hid (hno i)

theorem upsert_of_match_overwritten {i : Fin n} (hid : C[i].id = id) (hlow : ∀ j : Fin n, j < i → C[j].id ≠ id)
    (ho : s.toNat ≤ C[i].strength.toNat ∨ stale cutoff C[i] t = true) :
    upsert cutoff C id s t = (C.set i ⟨id, s, t⟩, .slot i) := by
  rw [upsert_of_match hid hlow, if_pos (overwrites_eq_true_iff.2 ho)]

theorem upsert_of_match_kept {i : Fin n} (hid : C[i].id = id) (hlow : ∀ j : Fin n, j < i → C[j].id ≠ id)
    (hstrength : C[i].strength.toNat < s.toNat) (hfresh : stale cutoff C[i] t = false) :
    upsert cutoff C id s t = (C, .slot i) := by
  rw [upsert_of_match hid hlow, overwrites_eq_false_iff.2 ⟨hstrength, hfresh⟩, if_neg Bool.false_ne_true]

/-- Phase 2: with no match the first stale slot takes the whole record. -/
theorem upsert_of_stale {i : Fin n} (hno : holdsNot C id) (hi : stale cutoff C[i] t = true)
    (hlow : ∀ j : Fin n, j < i → stale cutoff C[j] t = false) :
    upsert cutoff C id s t = (C.set i ⟨id, s, t⟩, .slot i) := by
  rcases upsert_cases cutoff C id s t with ⟨k, hk, _⟩ | ⟨k, hk, _⟩ | ⟨k, _, hk, hklow, he⟩ | ⟨_, hfresh, _⟩
  · exact absurd hk (hno k)
  · exact absurd hk (hno k)
  · obtain rfl := eq_of_first (p := fun j => stale cutoff C[j] t = true) hi (fun j hj => Bool.eq_false_iff.1 (hlow j hj)) hk
      fun j hj => Bool.eq_false_iff.1 (hklow j hj)
    exact he
  · exact absurd hi (Bool.eq_false_iff.1 (hfresh i))

/-- Phase 3: with no match and every slot fresh nothing changes. -/
theorem upsert_of_full (hno : holdsNot C id) (hfresh : allFresh cutoff C t) : upsert cutoff C id s t = (C, .cacheFull) := by
  rcases upsert_cases cutoff C id s t with ⟨k, hk, _⟩ | ⟨k, hk, _⟩ | ⟨k, _, hk, _⟩ | ⟨_, _, he⟩
  · exact absurd hk (hno k)
  · exact absurd hk (hno k)
  · exact absurd hk (Bool.eq_false_iff.1 (hfresh k))
  · exact he

/-- A slot that alone holds the id is the one phase 1 stops at. -/
theorem heldOnlyBy.first_match {i : Fin n} (h : heldOnlyBy C id i) : C[i].id = id ∧ ∀ j : Fin n, j < i → C[j].id ≠ id :=
  ⟨(h i).2 rfl, fun j hj hid => hj.ne ((h j).1 hid)⟩

/-! The slot written, and the ids kept (R140, R141, R143) -/

/-- `upsert` leaves the cache or writes one record, into a slot such that another slot holds the incoming id only above it, where
that slot holds the id too: phase 1 stops at the lowest match, and phase 2 runs only when there is none (R136). -/
theorem upsert_cache_cases (cutoff : BitVec w) (C : Cache w n) (id : Half) (s : Byte) (t : BitVec w) :
    (upsert cutoff C id s t).1 = C ∨
    ∃ i : Fin n, (∀ j : Fin n, j ≠ i → C[j].id = id → C[i].id = id ∧ i < j) ∧
      (upsert cutoff C id s t).1 = C.set i ⟨id, s, t⟩ := by
  rcases upsert_cases cutoff C id s t with ⟨i, hid, hlow, _, he⟩ | ⟨i, _, _, _, he⟩ | ⟨i, hno, _, _, he⟩ | ⟨_, _, he⟩
  all_goals rw [he]
  · exact .inr ⟨i, fun j hji hj => ⟨hid, lt_of_le_of_ne (not_lt.1 fun hlt => hlow j hlt hj) hji.symm⟩, rfl⟩
  · exact .inl rfl
  · exact .inr ⟨i, fun j _ hj => absurd hj (hno j), rfl⟩
  · exact .inl rfl

/-- What the result `Slot(i)` says of the new cache: by phase 1 the matched slot is written or kept, by phase 2 it is written. -/
theorem upsert_slot_cases {i : Fin n} (h : (upsert cutoff C id s t).2 = .slot i) :
    (C[i].id = id ∧ ((upsert cutoff C id s t).1 = C.set i ⟨id, s, t⟩ ∨ (upsert cutoff C id s t).1 = C)) ∨
    (holdsNot C id ∧ (upsert cutoff C id s t).1 = C.set i ⟨id, s, t⟩) := by
  rcases upsert_cases cutoff C id s t with ⟨k, hid, _, _, he⟩ | ⟨k, hid, _, _, he⟩ | ⟨k, hno, _, _, he⟩ | ⟨_, _, he⟩
  all_goals
    rw [he] at h ⊢
    cases h
  · exact .inl ⟨hid, .inl rfl⟩
  · exact .inl ⟨hid, .inr rfl⟩
  · exact .inr ⟨hno, rfl⟩

/-- What the result `CACHE_FULL` says: the cache is kept, and the incoming id is in no slot. -/
theorem upsert_cacheFull (h : (upsert cutoff C id s t).2 = .cacheFull) :
    (upsert cutoff C id s t).1 = C ∧ holdsNot C id := by
  rcases upsert_cases cutoff C id s t with ⟨_, _, _, _, he⟩ | ⟨_, _, _, _, he⟩ | ⟨_, _, _, _, he⟩ | ⟨hno, _, he⟩
  all_goals
    rw [he] at h ⊢
    cases h
  exact ⟨rfl, hno⟩

/-- `upsert` keeps pairwise different ids pairwise different, stale slots included (R141). -/
theorem upsert_keeps_idsDistinct (h : idsDistinct C) : idsDistinct (upsert cutoff C id s t).1 := by
  rcases upsert_cache_cases cutoff C id s t with he | ⟨i, hi, he⟩
  all_goals rw [he]
  · exact h
  · have hfree : ∀ j : Fin n, C[j].id = id → i = j := fun j hj => by
      by_contra hij
      exact hij (h i j ((hi j (Ne.symm hij) hj).1.trans hj.symm))
    intro a b hab
    rw [Cache.get_set, Cache.get_set] at hab
    split at hab <;> split at hab
    · next ha hb => exact ha.symm.trans hb
    · next ha hb => exact absurd (hfree b hab.symm) hb
    · next ha hb => exact absurd (hfree a hab) ha
    · exact h a b hab

/-- `upsert` keeps that of two slots with one id the later one is the reset record (R143 c). -/
theorem upsert_keeps_onlyResetRecordsRepeat (h : onlyResetRecordsRepeat C) :
    onlyResetRecordsRepeat (upsert cutoff C id s t).1 := by
  rcases upsert_cache_cases cutoff C id s t with he | ⟨i, hi, he⟩
  all_goals rw [he]
  · exact h
  · intro a b hab hid
    rw [Cache.get_set, Cache.get_set] at hid
    rw [Cache.get_set]
    by_cases hb : i = b
    · subst hb
      rw [if_pos rfl, if_neg hab.ne'] at hid
      exact absurd (hi a hab.ne hid).2 hab.not_gt
    · rw [if_neg hb] at hid ⊢
      by_cases ha : i = a
      · subst ha
        rw [if_pos rfl] at hid
        exact h i b hab ((hi b (Ne.symm hb) hid.symm).1.trans hid)
      · rw [if_neg ha] at hid
        exact h a b hab hid

/-! How many slots hold an id (R141) -/

theorem idCount_le_of_imp {C C' : Cache w n} {v : Half} (h : ∀ i : Fin n, C'[i].id = v → C[i].id = v) :
    idCount C' v ≤ idCount C v :=
  List.countP_mono_left fun i _ hi => beq_iff_eq.2 (h i (beq_iff_eq.1 hi))

theorem idCount_eq_zero_iff {v : Half} : idCount C v = 0 ↔ holdsNot C v := by
  simp [idCount, List.countP_eq_zero, holdsNot]

theorem idCount_eq_one {v : Half} {i : Fin n} (h : heldOnlyBy C v i) : idCount C v = 1 := by
  have hpred : (fun j : Fin n => C[j].id == v) = (· == i) := funext fun j => by rw [Bool.eq_iff_iff]; simpa using h j
  rw [idCount, hpred]
  exact List.count_eq_one_of_mem (List.nodup_finRange n) (List.mem_finRange i)

/-- Overwriting a record under its own id changes no count. -/
theorem idCount_set_of_match {i : Fin n} {r : BeaconRecord w} (h : C[i].id = r.id) (v : Half) :
    idCount (C.set i r) v = idCount C v := by
  have hids : ∀ j : Fin n, (C.set i r)[j].id = C[j].id := fun j => by
    rw [Cache.get_set]
    split
    · next hij => rw [← hij, h]
    · rfl
  exact le_antisymm (idCount_le_of_imp fun j hj => (hids j).symm.trans hj) (idCount_le_of_imp fun j hj => (hids j).trans hj)

/-- Writing a record raises the count of no id but its own. -/
theorem idCount_set_le {i : Fin n} {r : BeaconRecord w} {v : Half} (hv : v ≠ r.id) : idCount (C.set i r) v ≤ idCount C v :=
  idCount_le_of_imp fun j hj => by
    rw [Cache.get_set] at hj
    split at hj
    · exact absurd hj.symm hv
    · exact hj

/-- Writing a record whose id no slot holds makes its slot the only holder. -/
theorem heldOnlyBy_set {r : BeaconRecord w} (h : holdsNot C r.id) (i : Fin n) : heldOnlyBy (C.set i r) r.id i := by
  intro j
  rw [Cache.get_set]
  split
  · next hij => exact ⟨fun _ => hij.symm, fun _ => rfl⟩
  · next hij => exact ⟨fun hj => absurd hj (h j), fun hj => absurd hj.symm hij⟩

/-- `upsert` raises the count of no id but the incoming one. -/
theorem idCount_upsert_le {v : Half} (hv : v ≠ id) : idCount (upsert cutoff C id s t).1 v ≤ idCount C v := by
  rcases upsert_cache_cases cutoff C id s t with he | ⟨i, _, he⟩
  all_goals rw [he]
  exact idCount_set_le hv

/-- An `upsert` that answers a slot leaves the incoming id in as many slots as before, and in one if it was in none. -/
theorem idCount_upsert_of_slot {i : Fin n} (h : (upsert cutoff C id s t).2 = .slot i) :
    idCount (upsert cutoff C id s t).1 id = max (idCount C id) 1 := by
  rcases upsert_slot_cases h with ⟨hid, he⟩ | ⟨hno, he⟩
  · have hpos : 1 ≤ idCount C id := Nat.one_le_iff_ne_zero.2 fun hzero => idCount_eq_zero_iff.1 hzero i hid
    rw [max_eq_left hpos]
    rcases he with he | he
    all_goals rw [he]
    exact idCount_set_of_match hid id
  · rw [he, idCount_eq_zero_iff.2 hno]
    exact idCount_eq_one (heldOnlyBy_set (r := ⟨id, s, t⟩) hno i)

end Cache

/-! The cache under a command and under a step (R24) -/

/-- All that a command can leave in `CACHE`: what was there, or what one `upsert` makes of it. -/
theorem UnitState.command_cache_cases {c : Configuration} (u : UnitState c) (i : Instr) :
    (u.command i).1.cache = u.cache ∨
    ∃ oid strength tick, (u.command i).1.cache = (u.upserted oid strength tick).1 := by
  by_cases hi : i.opcode ∉ [0x50#8, 0x51#8, 0x60#8]
  · exact .inl (u.command_cache hi)
  · cases i with
    | upsert oid strength tick =>
      rcases UnitState.upsert_command_cases oid strength tick u with ⟨_, he⟩ | ⟨C, k, _, hu, he⟩ | ⟨_, _, he⟩
      all_goals rw [UnitState.command, he]
      · exact .inl rfl
      · exact .inr ⟨oid, strength, tick, (congrArg Prod.fst hu).symm⟩
      · exact .inl rfl
    | rxpkt tick =>
      rw [UnitState.command, UnitState.rxpkt]
      rcases u.checked_cases (u.receiveWith c.layout c.cipher tick) (tickInRange c tick) with ⟨_, hx⟩ | ⟨_, hx⟩
      all_goals rw [hx]
      · rcases UnitState.receiveWith_cases c.layout c.cipher tick u with ⟨_, he⟩ | ⟨C, k, _, hu, he⟩ | ⟨_, _, he⟩
        all_goals rw [he]
        · exact .inl (by rw [UnitState.raise_state, UnitState.withPkt_cache])
        · exact .inr ⟨_, _, tick, by rw [hu, UnitState.respondOk_state, UnitState.withCache_cache]⟩
        · exact .inl (by rw [UnitState.raise_state, UnitState.withPkt_cache])
      · exact .inl rfl
    | rdslot idx => exact .inl (congrArg UnitState.cache (u.rdslot_state idx))
    | nop | putb | getb | crc | chk | norm | dec | disp => simp [Instr.opcode] at hi

/-- What every `upsert` keeps of the cache, every step keeps. -/
theorem step_keeps_of_upsert_keeps {P : Cache Config.tickW Config.capacity → Prop}
    (hP : ∀ (C : Cache Config.tickW Config.capacity) (oid : Half) (strength : Byte) (tick : Tick),
      P C → P (upsert cutoffTick C oid strength tick).1)
    {s u : State} (hs : P s.cache) (hstep : step s = .next u) : P u.cache := by
  by_cases hunit : u.unit = s.unit
  · have hcache : u.cache = s.cache := congrArg UnitState.cache hunit
    rwa [hcache]
  · obtain ⟨i, rest, _, rfl⟩ := step_changing_unit hstep hunit
    rw [State.performs_cache]
    rcases UnitState.command_cache_cases (State.unit { s with pending := rest }) i with he | ⟨oid, strength, tick, he⟩
    all_goals rw [he]
    · exact hs
    · exact hP s.cache oid strength (tickOf Config.record tick) hs

/-! `UPSERT` and `RDSLOT` on this machine (R135, R145) -/

theorem runsAs_upsert : runsAs 0x50#8 (fun w => 2 ^ Config.tickW ≤ (tField w).toNat)
    (fun w => .upsert (hField w) (aField w) (tField w)) := by
  refine runsAs_of_decode_eq_accept (zeros := fun _ => true) (fun w hop => by simp [decode, decodeFor, hop]) fun w => ?_
  have hwf : (Instr.upsert (hField w) (aField w) (tField w)).wellFormed = tickInRange Config.record (tField w) := rfl
  rw [hwf, tickInRange_eq_false]
  simp only [Bool.true_eq_false, false_or]

theorem runsAs_rdslot : runsAs 0x51#8 (fun w => aField w ≠ 0#8 ∨ tField w ≠ 0#32 ∨ Config.capacity ≤ (hField w).toNat)
    (fun w => .rdslot (hField w)) := by
  refine runsAs_of_decode_eq_accept (zeros := fun w => aField w == 0#8 && tField w == 0#32)
    (fun w hop => by simp [decode, decodeFor, hop]) fun w => ?_
  have hwf : (Instr.rdslot (hField w)).wellFormed = indexInCache Config.record (hField w) := rfl
  rw [hwf, indexInCache_eq_false, Bool.and_eq_false_iff, beq_eq_false_iff_ne, beq_eq_false_iff_ne, or_assoc]

section Commands

variable {s : State} {oid : Half} {strength : Byte} {tick : Tick} {C : Cache Config.tickW Config.capacity}
  {i : Fin Config.capacity}

/-- `UPSERT` leaves the cache its `upsert` gives and answers the slot. -/
theorem exec_upsert_of_slot (h : upsert cutoffTick s.cache oid strength tick = (C, .slot i)) :
    exec (.upsert oid strength tick) s = .next ((s.withCache C).answer ⟨.ok, 0#8, 0#16, slotWord i⟩) := by
  rcases execUpsert_cases s oid strength tick with ⟨C', k, hu, he⟩ | ⟨hu, _⟩
  · cases h.symm.trans hu
    exact he
  · cases h.symm.trans hu

/-- `UPSERT` that finds no slot only answers `CACHE_FULL`. -/
theorem exec_upsert_of_cacheFull (h : upsert cutoffTick s.cache oid strength tick = (C, .cacheFull)) :
    exec (.upsert oid strength tick) s = .next (s.answer ⟨.cacheFull, 0#8, 0#16, 0#32⟩) := by
  rcases execUpsert_cases s oid strength tick with ⟨_, _, hu, _⟩ | ⟨_, he⟩
  · cases h.symm.trans hu
  · exact he

end Commands

/-! The statements -/

/-- Settles O57: every `upsert` keeps it (`upsert_keeps_onlyResetRecordsRepeat`), so every step does. -/
theorem stepKeepsOnlyResetRecordsRepeating : Obligations.StepKeepsOnlyResetRecordsRepeating :=
  fun _ _ => step_keeps_of_upsert_keeps fun _ _ _ _ => upsert_keeps_onlyResetRecordsRepeat

/-- Settles O58: every `upsert` keeps it (`upsert_keeps_idsDistinct`), so every step does. -/
theorem stepKeepsIdsDistinct : Obligations.StepKeepsIdsDistinct :=
  fun _ _ => step_keeps_of_upsert_keeps fun _ _ _ _ => upsert_keeps_idsDistinct

/-- Settles O29: the three phases, the staleness test of each in the numbers of R132. -/
theorem upsertFollowsTheThreePhases : Obligations.UpsertFollowsTheThreePhases := by
  intro w n cutoff C id s t
  rw [← threshold_toNat]
  simp only [← stale_eq_true_iff, ← stale_eq_false_iff]
  refine ⟨fun i hid hlow => ⟨?_, ?_⟩, fun hno => ⟨fun i => ?_, ?_⟩⟩
  · exact upsert_of_match_overwritten hid hlow
  · exact upsert_of_match_kept hid hlow
  · exact upsert_of_stale hno
  · exact upsert_of_full hno

/-- Settles O30: the word runs as the command, and the result of its `upsert` decides what is left and answered. -/
theorem upsertCommandUpdatesTheCache : Obligations.UpsertCommandUpdatesTheCache :=
  ⟨runsAs_upsert, fun _ _ _ _ => ⟨fun _ _ => exec_upsert_of_slot, fun _ => exec_upsert_of_cacheFull⟩⟩

/-- Settles O31: inside the table `RDSLOT` answers the slot (`UnitState.rdslot_of_lt`), outside it refuses; the unit is left. -/
theorem rdslotAnswersTheRecord : Obligations.RdslotAnswersTheRecord := by
  refine ⟨runsAs_rdslot, fun s idx => ⟨fun i hi => ?_, fun hidx => ?_⟩⟩
  · exact congrArg Host.Outcome.next (s.performs_answer (s.unit.rdslot_of_lt hi))
  · have hwf : (Instr.rdslot idx).wellFormedFor Config.record = false := (indexInCache_eq_false _ _).2 hidx
    rw [exec_eq_performs, s.performs_answer (s.unit.command_of_illFormed hwf)]
    rfl

/-- Settles O32: the threshold without its modulus on either side of the cutoff; the age is the same wrapped difference, of the tick
and the record. -/
theorem stalenessHasThreeRegimes : Obligations.StalenessHasThreeRegimes := by
  intro w cutoff r t N K L
  have hK : K < N := cutoff.isLt
  have hL : L < N := r.lastSeenTick.isLt
  have hage : (t.toNat + N - L) % N = (threshold r.lastSeenTick t).toNat := (threshold_toNat _ _).symm
  rw [stale_eq_false_iff, stale_eq_true_iff, hage]
  rcases lt_or_ge t.toNat K with htK | hKt <;> rcases lt_or_ge t.toNat L with htL | hLt
  · rw [threshold_toNat_of_lt htK, threshold_toNat_of_lt htL]
    omega
  · rw [threshold_toNat_of_lt htK, threshold_toNat_of_le hLt]
    omega
  · rw [threshold_toNat_of_le hKt, threshold_toNat_of_lt htL]
    omega
  · rw [threshold_toNat_of_le hKt, threshold_toNat_of_le hLt]
    omega

/-- Settles O33: a returned slot was written or kept (`upsert_slot_cases`), and `UPSERT` leaves the buffer. -/
theorem upsertChangesAtMostTheReturnedSlot : Obligations.UpsertChangesAtMostTheReturnedSlot := by
  refine ⟨fun w n cutoff C id s t => ⟨fun i hslot => ?_, fun hfull => (upsert_cacheFull hfull).1⟩,
    fun s id strength tick => ?_⟩
  · have hframe : ∀ j : Fin n, j ≠ i → (C.set i ⟨id, s, t⟩)[j] = C[j] := fun j hj => by
      rw [Cache.get_set, if_neg hj.symm]
    have hwritten : (C.set i ⟨id, s, t⟩)[i] = ⟨id, s, t⟩ := by rw [Cache.get_set, if_pos rfl]
    rcases upsert_slot_cases hslot with ⟨hid, he | he⟩ | ⟨hno, he⟩
    all_goals rw [he]
    · exact ⟨hframe, fun _ => ⟨by rw [hwritten, hid], hid, .inr hwritten⟩, fun _ => hwritten⟩
    · exact ⟨fun _ _ => rfl, fun _ => ⟨rfl, hid, .inl rfl⟩, fun hno => absurd hid (hno i)⟩
    · exact ⟨hframe, fun ⟨j, hj⟩ => absurd hj (hno j), fun _ => hwritten⟩
  · exact ⟨_, exec_eq_performs s _, s.unit.command_pkt (by simp [Instr.opcode])⟩

/-- Settles O34: the count of each id, by the result of the `upsert`. -/
theorem upsertKeepsIdsUnique : Obligations.UpsertKeepsIdsUnique := by
  refine fun w n cutoff C id s t => ⟨fun v => idCount_upsert_le, fun hslot => ?_, fun hfull => ?_, upsert_keeps_idsDistinct⟩
  · cases hres : (upsert cutoff C id s t).2 with
    | slot i => exact idCount_upsert_of_slot hres
    | cacheFull => exact absurd hres hslot
  · obtain ⟨he, hno⟩ := upsert_cacheFull hfull
    rw [he]
    exact ⟨idCount_eq_zero_iff.2 hno, idCount_eq_zero_iff.2 hno⟩

/-- Settles O35: the record written at `T` is fresh at `T + 1` and at `T + CUTOFF` and stale at `T + CUTOFF + 1`; the one slot that
holds the id is the one phase 1 stops at. -/
theorem cachePropertiesOfTheSource : Obligations.CachePropertiesOfTheSource := by
  refine ⟨fun w n cutoff C i x T hpos hT hx => ?_,
    fun w n cutoff C y s t hno => ⟨upsert_of_full hno, fun j => upsert_of_stale hno⟩⟩
  obtain ⟨hid, hlow⟩ := hx.first_match
  refine ⟨fun hrec hwrap => ⟨?_, ?_, ?_⟩, fun s0 s hrec => ⟨fun hwrap => ?_, fun hwrap => ⟨fun hle => ?_, fun hlt => ?_⟩⟩⟩
  · exact upsert_of_match_overwritten hid hlow (.inl (by simp [hrec]))
  · exact upsert_of_match_kept hid hlow (by simp [hrec]) (fresh_at_next_tick (by rw [hrec]) hpos hT hwrap)
  · exact upsert_of_match_overwritten hid hlow (.inl (by simp [hrec]))
  · exact upsert_of_match_overwritten hid hlow (.inr (stale_after_cutoff (by rw [hrec]) (by omega)))
  · exact upsert_of_match_overwritten hid hlow (.inl (by simpa [hrec] using hle))
  · exact upsert_of_match_kept hid hlow (by simpa [hrec] using hlt) (fresh_at_cutoff (by rw [hrec]))

/-- Settles O36: every slot is `(0, 0, 0)`, stale at every tick but the cutoff (`stale_zero_iff`), so id 0 is matched in slot 0
and any other id takes slot 0 or none; at the cutoff the strength decides about id 0. -/
theorem freshlyResetCacheAtEveryTick : Obligations.FreshlyResetCacheAtEveryTick := by
  intro s id strength tick hs
  have hslot : ∀ j : Fin Config.capacity, s.cache[j] = BeaconRecord.zero Config.tickW := fun j => by
    rw [hs, State.reset_slot]
  have hlow (p : Fin Config.capacity → Prop) : ∀ j : Fin Config.capacity, j < 0 → p j :=
    fun j hj => absurd hj (Fin.not_lt_zero j)
  have hmatch (hid : id = 0#16) : s.cache[(0 : Fin Config.capacity)].id = id := by rw [hslot, hid]; rfl
  have hno (hid : id ≠ 0#16) : holdsNot s.cache id := fun j hj => hid (by rw [← hj, hslot j]; rfl)
  have hcutoff : tick.toNat = 8096 ↔ tick = cutoffTick := BitVec.toNat_inj (y := cutoffTick)
  refine ⟨fun ht => ?_, fun ht hid => ?_, fun ht hid hstrength => ?_, fun ht hid hstrength => ?_⟩
  · have hstale : stale cutoffTick s.cache[(0 : Fin Config.capacity)] tick = true := by
      rw [hslot, stale_zero_iff, ne_eq, ← hcutoff]
      exact ht
    by_cases hid : id = 0#16
    · exact exec_upsert_of_slot (upsert_of_match_overwritten (hmatch hid) (hlow _) (.inr hstale))
    · exact exec_upsert_of_slot (upsert_of_stale (hno hid) hstale (hlow _))
  all_goals
    have hfresh : allFresh cutoffTick s.cache tick := fun j => by
      rw [hslot, ← Bool.not_eq_true, stale_zero_iff, not_not, ← hcutoff]
      exact ht
  · exact exec_upsert_of_cacheFull (upsert_of_full (hno hid) hfresh)
  · have hpos : s.cache[(0 : Fin Config.capacity)].strength.toNat < strength.toNat := by
      rw [hslot]
      exact BitVec.toNat_pos_of_ne_zero hstrength
    exact exec_upsert_of_slot (upsert_of_match_kept (hmatch hid) (hlow _) hpos (hfresh 0))
  · subst hid hstrength
    exact exec_upsert_of_slot (upsert_of_match_overwritten (hmatch rfl) (hlow _) (.inl (Nat.zero_le _)))

/-- Settles O39: of two slots with one id the later is a reset record, stale at every tick but the cutoff (`stale_zero_iff`). -/
theorem noTwoLiveRecordsShareAnId : Obligations.NoTwoLiveRecordsShareAnId := by
  intro C t hreset ht
  have hlater : ∀ i j : Fin Config.capacity, i < j → stale cutoffTick C[j] t = false → C[i].id ≠ C[j].id := by
    intro i j hij hfresh hid
    rw [hreset i j hij hid, stale_zero_iff.2 ht] at hfresh
    cases hfresh
  intro i j hi hj hid
  rcases lt_trichotomy i j with hij | hij | hji
  · exact absurd hid (hlater i j hij hj)
  · exact hij
  · exact absurd hid.symm (hlater j i hji hi)

end Sys2Proof.Machine

/-! PROOFS. The per-packet pipeline (45_pipeline.md): `RXPKT` by the verdict on the plaintext and by the result of `upsert`; that the
commands `NORM`, `DEC`, `NORM`, `CHK`, `DISP`, `UPSERT` do the same; and the inverse pipeline on a sealed block. -/

namespace Sys2Proof.Machine

/-! What `RXPKT` does (R160) -/

theorem runsAs_rxpkt : runsAs 0x60#8 (fun w => aField w ≠ 0#8 ∨ hField w ≠ 0#16 ∨ 2 ^ Config.tickW ≤ (tField w).toNat)
    (fun w => .rxpkt (tField w)) := by
  refine runsAs_of_decode_eq_accept (zeros := fun w => aField w == 0#8 && hField w == 0#16)
    (fun w hop => by simp [decode, decodeFor, hop]) fun w => ?_
  have hwf : (Instr.rxpkt (tField w)).wellFormed = tickInRange Config.record (tField w) := rfl
  rw [hwf, tickInRange_eq_false, Bool.and_eq_false_iff, beq_eq_false_iff_ne, beq_eq_false_iff_ne, or_assoc]

/-- The unit's `upsert` is the machine's: every tick operand is in range. -/
theorem State.upserted_unit (s : State) (oid : Half) (strength : Byte) (tick : Word32) :
    s.unit.upserted oid strength tick = upsert cutoffTick s.cache oid strength tick := by
  rw [UnitState.upserted, tickOf_record]
  rfl

section Packet

variable {s : State} {tick : Word32} {B : Block}

/-- Whatever the outcome, `RXPKT` leaves the plaintext in the buffer. -/
theorem pkt_of_exec_rxpkt {u : State} (h : exec (.rxpkt tick) s = .next u) :
    u.pkt = s.pkt.writeBlock (plaintextOf Config.cipher s.pkt.block) := by
  obtain rfl := Host.Outcome.next.inj ((exec_eq_performs s _).symm.trans h)
  have hrun : s.unit.command (.rxpkt tick) = s.unit.receiveWith Config.layout Config.cipher tick :=
    UnitState.rxpkt_of_lt tick.isLt
  rw [State.performs_pkt, hrun, UnitState.receiveWith_pkt (Prod.eta _).symm, State.unit_pkt]

/-- `RXPKT` on a block that does not verify leaves the cache and answers both checksums. -/
theorem exec_rxpkt_of_not_verify (hB : plaintextOf Config.cipher s.pkt.block = B) (hv : verify B = false) :
    exec (.rxpkt tick) s = .next ((s.withPkt (s.pkt.writeBlock B)).answer
      ⟨.crcFail, 0#8, computedChecksum B, (carriedChecksum B).setWidth 32⟩) :=
  congrArg Host.Outcome.next (s.performs_withPkt
    ((UnitState.rxpkt_of_lt tick.isLt).trans (UnitState.receiveWith_of_not_verify hB hv)))

section Accepted

variable {C : Cache Config.tickW Config.capacity} {i : Fin Config.capacity}

/-- `RXPKT` on a block that verifies and whose observation finds a slot. -/
theorem exec_rxpkt_of_slot (hB : plaintextOf Config.cipher s.pkt.block = B) (hv : verify B = true)
    (hup : upsert cutoffTick s.cache (dispatch Config.layout B).oid (dispatch Config.layout B).trackerStrength tick =
      (C, .slot i)) :
    exec (.rxpkt tick) s = .next (((s.withPkt (s.pkt.writeBlock B)).withCache C).answer
      ⟨.ok, (dispatch Config.layout B).trackerStrength, (dispatch Config.layout B).oid, slotWord i⟩) :=
  congrArg Host.Outcome.next (s.performs_withPkt_withCache
    ((UnitState.rxpkt_of_lt tick.isLt).trans (UnitState.receiveWith_of_slot hB hv ((s.upserted_unit _ _ _).trans hup))))

/-- `RXPKT` on a block that verifies and whose observation finds no slot leaves the cache. -/
theorem exec_rxpkt_of_cacheFull (hB : plaintextOf Config.cipher s.pkt.block = B) (hv : verify B = true)
    (hup : upsert cutoffTick s.cache (dispatch Config.layout B).oid (dispatch Config.layout B).trackerStrength tick =
      (C, .cacheFull)) :
    exec (.rxpkt tick) s = .next ((s.withPkt (s.pkt.writeBlock B)).answer
      ⟨.cacheFull, (dispatch Config.layout B).trackerStrength, (dispatch Config.layout B).oid, 0#32⟩) :=
  congrArg Host.Outcome.next (s.performs_withPkt
    ((UnitState.rxpkt_of_lt tick.isLt).trans (UnitState.receiveWith_of_cacheFull hB hv ((s.upserted_unit _ _ _).trans hup))))

end Accepted

/-! `RXPKT` and the other commands (R162) -/

/-- On a block that verifies, `RXPKT` leaves the cache and answers the status and `t` of `UPSERT` with the block's observation, run on
any state `d` with the same cache. -/
theorem exec_rxpkt_of_verify (hB : plaintextOf Config.cipher s.pkt.block = B) (hv : verify B = true) : ∃ C r,
    (r.status = .ok ∨ r.status = .cacheFull) ∧
    (∀ d : State, d.cache = s.cache →
      exec (.upsert (dispatch Config.layout B).oid (dispatch Config.layout B).trackerStrength tick) d =
        .next ((d.withCache C).answer r)) ∧
    exec (.rxpkt tick) s = .next (((s.withPkt (s.pkt.writeBlock B)).withCache C).answer
      ⟨r.status, (dispatch Config.layout B).trackerStrength, (dispatch Config.layout B).oid, r.t⟩) := by
  rcases hup : upsert cutoffTick s.cache (dispatch Config.layout B).oid (dispatch Config.layout B).trackerStrength tick with
    ⟨C, i | _⟩
  · exact ⟨C, ⟨.ok, 0#8, 0#16, slotWord i⟩, .inl rfl, fun d hd => exec_upsert_of_slot (hd ▸ hup),
      exec_rxpkt_of_slot hB hv hup⟩
  · refine ⟨s.cache, ⟨.cacheFull, 0#8, 0#16, 0#32⟩, .inr rfl, fun d hd => ?_, exec_rxpkt_of_cacheFull hB hv hup⟩
    rw [← hd]
    exact exec_upsert_of_cacheFull (hd ▸ hup)

/-- Of two whole-block writes the second counts. -/
theorem Memory.read_writeBlock_writeBlock (m : Memory) (A B : Block) (a : Nat) :
    ((m.writeBlock A).writeBlock B).read a = (m.writeBlock B).read a := by
  by_cases ha : a < 16
  · rw [Memory.read_writeBlock, dif_pos ha, Memory.read_writeBlock, dif_pos ha]
  · have hout : 16 ≤ a := not_lt.1 ha
    simp only [Memory.read_writeBlock_outside _ _ hout]

/-- In a canonical buffer nothing is left of the first of two whole-block writes (log entry 4). -/
theorem Memory.writeBlock_writeBlock {m : Memory} (h : m.wf) (A B : Block) :
    (m.writeBlock A).writeBlock B = m.writeBlock B :=
  Memory.wf_ext (Memory.writeBlock_wf (Memory.writeBlock_wf h A) B) (Memory.writeBlock_wf h B) (m.read_writeBlock_writeBlock A B)

/-- `CHK` only answers both checksums and the verdict on the buffer (R86). -/
theorem exec_chk {v : State} (hB : v.pkt.block = B) : exec .chk v = .next (v.answer
    ⟨if verify B then .ok else .crcFail, 0#8, computedChecksum B, (carriedChecksum B).setWidth 32⟩) :=
  hB ▸ execChk_eq v

/-- `DISP` only answers the observation of the buffer (R122). -/
theorem exec_disp {v : State} (hB : v.pkt.block = B) : exec .disp v = .next (v.answer
    ⟨.ok, (dispatch Config.layout B).trackerStrength, (dispatch Config.layout B).oid,
      (dispatch Config.layout B).proto.setWidth 32⟩) :=
  hB ▸ execDisp_eq v

/-- Commands appended to a list that goes on run in the state it leaves. -/
theorem execAll_append {l : List Instr} {s v : State} (h : execAll l s = .next v) (l' : List Instr) :
    execAll (l ++ l') s = execAll l' v := by
  induction l generalizing s with
  | nil =>
    obtain rfl : s = v := Host.Outcome.next.inj h
    rfl
  | cons i l ih =>
    rw [execAll_cons (exec_eq_performs s i)] at h
    rw [List.cons_append, execAll_cons (exec_eq_performs s i), ih h]

/-- `NORM`, `DEC`, `NORM` leave the plaintext in the buffer, and the cache as it was (R68, R161). -/
theorem execAll_decodePseudo (s : State) : ∃ v : State, execAll decodePseudo s = .next v ∧
    v.pkt.block = plaintextOf Config.cipher s.pkt.block ∧
    (s.pktCanonical → v.pkt = s.pkt.writeBlock (plaintextOf Config.cipher s.pkt.block)) ∧ v.cache = s.cache := by
  rw [decodePseudo, execAll_cons (exec_norm s), execAll_cons (exec_dec _), execAll_cons (exec_norm _)]
  refine ⟨_, rfl, by simp [plaintextOf], fun hs => ?_, by simp⟩
  simp [plaintextOf, Memory.writeBlock_writeBlock hs]

end Packet

/-! The inverse pipeline (R165) -/

/-- The pipeline turns the wire packet of a block back into it: normalizing twice and decrypting what was encrypted undo each other. -/
theorem plaintextOf_wirePacketOf (P : Block) : plaintextOf Config.cipher (wirePacketOf Config.cipher.symm P) = P := by
  rw [plaintextOf, wirePacketOf, normalizeBlock_involutive, Equiv.apply_symm_apply, normalizeBlock_involutive]

/-- Sealing leaves the fourteen bytes before the trailing field. -/
theorem getElem_sealBlock_of_lt (B : Block) {k : Nat} (hk : k < 14) : (sealBlock B)[k] = B[k] := by
  have h14 : 14 ≠ k := hk.ne'
  have h15 : 15 ≠ k := by omega
  simp [sealBlock, h14, h15]

/-- A sealed block is the fourteen bytes and their checksum, high byte first. -/
theorem toList_sealBlock (B : Block) : (sealBlock B).toList =
    B.toList.take 14 ++ [hi8 (checksum (B.toList.take 14)), lo8 (checksum (B.toList.take 14))] := by
  apply List.ext_getElem
  · simp
  · intro k hk _
    have hk16 : k < 16 := by simpa using hk
    by_cases h14 : k < 14
    · simp [h14, getElem_sealBlock_of_lt B h14]
    · have hlast : k = 14 ∨ k = 15 := by omega
      rcases hlast with rfl | rfl <;> simp [sealBlock, computedChecksum]

/-- A sealed block verifies: its sixteen bytes leave the residue 0 (R90). -/
theorem verify_sealBlock (B : Block) : verify (sealBlock B) = true := by
  obtain ⟨hresidue, _⟩ := appendedChecksumLeavesResidueZero
  rw [verify_iff_checksum_eq_zero, toList_sealBlock, hresidue]

/-- The observation is read from the bytes before the trailing field (R9, R120), so sealing keeps it. -/
theorem dispatch_sealBlock (L : Layout) (B : Block) : dispatch L (sealBlock B) = dispatch L B := by
  have hproto : (decodePacket L (sealBlock B)).proto = (decodePacket L B).proto :=
    getElem_sealBlock_of_lt B L.offProto.isLt
  have hstrength : (decodePacket L (sealBlock B)).rawStrength = (decodePacket L B).rawStrength :=
    getElem_sealBlock_of_lt B L.offStrength.isLt
  have hoid : (decodePacket L (sealBlock B)).oid = (decodePacket L B).oid := by
    have hhigh := getElem_sealBlock_of_lt B (L.offOid.isLt.trans (by decide))
    have hlow := getElem_sealBlock_of_lt B (k := L.offOid.val + 1) (Nat.succ_lt_succ L.offOid.isLt)
    simp only [decodePacket, be16, hhigh, hlow]
  simp only [dispatch, hproto, hstrength, hoid]

/-! The statements -/

/-- Settles O40: the word runs as the command, which always leaves the plaintext; the verdict on it and the result of `upsert` decide
what else is left and answered. -/
theorem rxpktRunsThePipeline : Obligations.RxpktRunsThePipeline := by
  refine ⟨runsAs_rxpkt, fun s tick => ?_⟩
  intro B computed carried o
  have hB : plaintextOf Config.cipher s.pkt.block = B := rfl
  obtain ⟨u, hrun⟩ : ∃ u, exec (.rxpkt tick) s = .next u := ⟨_, exec_eq_performs s _⟩
  have hpkt : u.pkt = s.pkt.writeBlock B := pkt_of_exec_rxpkt hrun
  have hu {v : State} (h : exec (.rxpkt tick) s = .next v) : u = v := Host.Outcome.next.inj (hrun.symm.trans h)
  refine ⟨u, hrun, ?_, fun a ha => ?_, ?_, fun hne => ?_, fun heq C res hup => ⟨?_, ?_⟩⟩
  · rw [hpkt, Memory.block_writeBlock]
  · rw [hpkt, Memory.read_writeBlock_outside _ _ ha]
  · rw [hu (exec_eq_performs s _), State.performs_pending]
  · have hv : verify B = false := Bool.eq_false_iff.2 (mt (verify_eq_true_iff B).1 hne)
    rw [hu (exec_rxpkt_of_not_verify hB hv)]
    exact ⟨by simp, by simp [computedChecksum, carriedChecksum, be16, computed, carried]⟩
  · rintro i rfl
    rw [hu (exec_rxpkt_of_slot hB ((verify_eq_true_iff B).2 heq) hup)]
    exact ⟨by simp, by simp [o, slotWord]⟩
  · rintro rfl
    rw [hu (exec_rxpkt_of_cacheFull hB ((verify_eq_true_iff B).2 heq) hup)]
    exact ⟨by simp, by simp [o]⟩

/-- Settles O41: `CHK` finds the plaintext that `RXPKT` computes, so both reach one verdict; on a block that verifies, `DISP` answers
the observation with which `RXPKT` does what `UPSERT` does (`exec_rxpkt_of_verify`). -/
theorem rxpktEqualsTheCommandSequence : Obligations.RxpktEqualsTheCommandSequence := by
  intro s tick
  obtain ⟨v, hdecode, hblock, hcanonical, hcache⟩ := execAll_decodePseudo s
  generalize hB : plaintextOf Config.cipher s.pkt.block = B at hblock hcanonical
  have hsame : (s.pkt.writeBlock B).block = v.pkt.block := by rw [Memory.block_writeBlock, hblock]
  have hequal (hs : s.pktCanonical) : s.pkt.writeBlock B = v.pkt := (hcanonical hs).symm
  have hseq := (execAll_append hdecode [.chk]).trans (execAll_cons (exec_chk hblock) [])
  cases hv : verify B with
  | false =>
    rw [hv] at hseq
    exact ⟨_, _, _, _, exec_rxpkt_of_not_verify hB hv, rfl, hseq, List.getLast?_concat,
      fun _ => ⟨rfl, hsame, hequal, hcache.symm, rfl⟩, fun hok => by cases hok⟩
  | true =>
    rw [hv] at hseq
    obtain ⟨C, r, _, hupsert, hrun⟩ := exec_rxpkt_of_verify (tick := tick) hB hv
    refine ⟨_, _, _, _, hrun, rfl, hseq, List.getLast?_concat, fun hno => absurd rfl hno, fun _ => ?_⟩
    exact ⟨_, _, _, r, exec_disp hblock, List.getLast?_concat, hupsert _ hcache, List.getLast?_concat, hsame, hequal, rfl, rfl,
      fun _ => rfl⟩

/-- Settles O42: `RXPKT` turns the wire packet back into the sealed block, which verifies and has the observation of the block itself;
on a reset cache the `UPSERT` it then does is that of R143 (`freshlyResetCacheAtEveryTick`). -/
theorem wirePacketOfASealedBlockIsAccepted : Obligations.WirePacketOfASealedBlockIsAccepted := by
  refine ⟨plaintextOf_wirePacketOf, verify_sealBlock, fun s B tick hs => ?_⟩
  have hB : plaintextOf Config.cipher s.pkt.block = sealBlock B := by rw [hs, plaintextOf_wirePacketOf]
  obtain ⟨C, r, hstatus, hupsert, hrun⟩ := exec_rxpkt_of_verify (tick := tick) hB (verify_sealBlock B)
  rw [dispatch_sealBlock] at hupsert hrun
  refine ⟨_, _, hrun, Memory.block_writeBlock _ _, rfl, hstatus, rfl, rfl, fun hreset htick => ?_⟩
  obtain ⟨hfresh, _⟩ := freshlyResetCacheAtEveryTick s _ _ tick hreset
  have hstate := Host.Outcome.next.inj ((hupsert s rfl).symm.trans (hfresh htick))
  have hC : C = _ := congrArg State.cache hstate
  obtain rfl : r = _ := List.singleton_inj.1 (List.append_cancel_left (congrArg State.responses hstate))
  exact ⟨rfl, rfl, hC⟩

end Sys2Proof.Machine

/-! PROOFS. Buffer access (46_buffer_access.md): the words that run as `NOP`, `PUTB` and `GETB`, the one byte that `PUTB` stores and
the one that `GETB` answers, and the refusal of an index past the buffer. -/

namespace Sys2Proof.Machine

/-! Words of `NOP`, `PUTB` and `GETB` (R64, R170 to R172) -/

/-- Only the zero word is read as `NOP`. -/
theorem decode_eq_nop_iff (w : Word) : decode w = .command .nop ↔ w = 0x0000000000000000#64 := by
  have hword : encode .nop = 0x0000000000000000#64 := by decide
  have hwf : Instr.nop.wellFormed = true := rfl
  rw [decode_eq_command_iff, hword, and_iff_left hwf, eq_comm]

theorem runsAs_putb :
    runsAs 0x01#8 (fun w => 16 ≤ (hField w).toNat ∨ tField w ≠ 0#32) (fun w => .putb (hField w) (aField w)) := by
  refine runsAs_of_decode_eq_accept (zeros := fun w => tField w == 0#32) (fun w hop => by simp [decode, decodeFor, hop]) fun w => ?_
  have hwf : (Instr.putb (hField w) (aField w)).wellFormed = indexInBuffer (hField w) := rfl
  rw [hwf, indexInBuffer_eq_false, beq_eq_false_iff_ne, or_comm]

theorem runsAs_getb :
    runsAs 0x02#8 (fun w => aField w ≠ 0#8 ∨ 16 ≤ (hField w).toNat ∨ tField w ≠ 0#32) (fun w => .getb (hField w)) := by
  refine runsAs_of_decode_eq_accept (zeros := fun w => aField w == 0#8 && tField w == 0#32)
    (fun w hop => by simp [decode, decodeFor, hop]) fun w => ?_
  have hwf : (Instr.getb (hField w)).wellFormed = indexInBuffer (hField w) := rfl
  rw [hwf, indexInBuffer_eq_false, Bool.and_eq_false_iff, beq_eq_false_iff_ne, beq_eq_false_iff_ne, or_assoc,
    or_comm (a := 16 ≤ _)]

/-! What they do to the state -/

/-- A command whose operands are out of range only answers `ERR_OPERAND` (R184). -/
theorem exec_of_illFormed (s : State) {i : Instr} (hi : i.wellFormed = false) :
    exec i s = .next (s.answer ⟨.errOperand, 0#8, 0#16, 0#32⟩) := by
  rw [exec_eq_performs, s.performs_answer (s.unit.command_of_illFormed hi)]

section Index

variable (s : State) {idx : Half}

/-- `PUTB` inside the buffer writes its byte at its index operand and answers `OK` (R171). -/
theorem exec_putb_of_index_lt (h : idx.toNat < 16) (byte : Byte) : exec (.putb idx byte) s =
    .next ((s.withPkt (s.pkt.write idx.toNat byte)).answer ⟨.ok, 0#8, 0#16, 0#32⟩) := by
  have hput := exec_putb_of_lt s h byte
  rwa [BitVec.ofNat_toNat, BitVec.setWidth_eq] at hput

/-- `GETB` inside the buffer only answers the byte at its index operand (R172). -/
theorem exec_getb_of_index_lt (h : idx.toNat < 16) :
    exec (.getb idx) s = .next (s.answer ⟨.ok, s.pkt.read idx.toNat, 0#16, 0#32⟩) := by
  have hget := s.unit.getb_of_lt h
  rw [BitVec.ofNat_toNat, BitVec.setWidth_eq] at hget
  exact congrArg Host.Outcome.next (s.performs_answer hget)

end Index

/-! The statements -/

/-- Settles O10: `NOP` is a command without operands, its word is the zero word (`decode_eq_nop_iff`), and it only answers. -/
theorem nopOnlyAnswersOk : Obligations.NopOnlyAnswersOk :=
  ⟨runsAs_withoutOperands (i := .nop) (by decide), decode_eq_nop_iff, fun s => ⟨_, execNop_eq s, by decide⟩⟩

/-- Settles O11: inside the buffer the write is at the index and nowhere else (`Memory.read_write_other`), past it `PUTB` is
refused. -/
theorem putbStoresExactlyOneByte : Obligations.PutbStoresExactlyOneByte := by
  refine ⟨runsAs_putb, fun s idx byte => ⟨fun hlt => ?_, fun hge => ?_⟩⟩
  · exact ⟨_, exec_putb_of_index_lt s hlt byte, Memory.read_write_same _ _ _,
      fun a ha => Memory.read_write_other _ _ ha.symm, rfl, rfl, rfl⟩
  · exact exec_of_illFormed s ((indexInBuffer_eq_false idx).2 hge)

/-- Settles O12: inside the buffer `GETB` only answers the byte (`exec_getb_of_index_lt`), past it `GETB` is refused. -/
theorem getbAnswersTheByte : Obligations.GetbAnswersTheByte := by
  refine ⟨runsAs_getb, fun s idx => ⟨fun hlt => ?_, fun hge => ?_⟩⟩
  · exact exec_getb_of_index_lt s hlt
  · exact exec_of_illFormed s ((indexInBuffer_eq_false idx).2 hge)

end Sys2Proof.Machine

/-! PROOFS. Responses and errors (60_exceptions.md): what a step answers to a word of each verdict, which commands answer which
status, and the 64-bit word of a response. -/

namespace Sys2Proof.Machine

/-! The response word (R180) -/

/-- Appended bits, in any width: the upper part shifted past the lower one. -/
theorem setWidth_append_eq_or {m k : Nat} (n : Nat) (x : BitVec m) (y : BitVec k) :
    (x ++ y).setWidth n = (x.setWidth n <<< k) ||| y.setWidth n := by
  apply BitVec.eq_of_getLsbD_eq
  intro i hi
  simp only [BitVec.getLsbD_setWidth, BitVec.getLsbD_append, BitVec.getLsbD_or, BitVec.getLsbD_shiftLeft]
  by_cases hk : i < k
  · simp [hk, hi]
  · have hsub : i - k < n := by omega
    simp [hk, hi, hsub, BitVec.getLsbD_of_ge y i (not_lt.1 hk)]

/-- The four fields lie side by side: each is shifted to its lowest bit (R60, R180). -/
theorem packWord_eq_or (op a : Byte) (h : Half) (t : Word32) : packWord op a h t =
    (op.setWidth 64 <<< 56) ||| (a.setWidth 64 <<< 48) ||| (h.setWidth 64 <<< 32) ||| t.setWidth 64 := by
  have hword : packWord op a h t = (op ++ a ++ h ++ t).setWidth 64 := (BitVec.setWidth_eq _).symm
  rw [hword, setWidth_append_eq_or, setWidth_append_eq_or, setWidth_append_eq_or]
  simp only [BitVec.shiftLeft_or_distrib, ← BitVec.shiftLeft_add, Nat.reduceAdd]

/-- Each field is read back from its word, so the word determines it (R60, R180). -/
theorem packWord_inj {op op' a a' : Byte} {h h' : Half} {t t' : Word32} :
    packWord op a h t = packWord op' a' h' t' ↔ op = op' ∧ a = a' ∧ h = h' ∧ t = t' := by
  constructor
  · intro hw
    exact ⟨by simpa using congrArg opField hw, by simpa using congrArg aField hw, by simpa using congrArg hField hw,
      by simpa using congrArg tField hw⟩
  · rintro ⟨rfl, rfl, rfl, rfl⟩
    rfl

/-- The five codes are different (R181). -/
theorem Status.code_injective : Function.Injective Status.code := by
  intro st st' h
  cases st <;> cases st' <;> simp [Status.code] at h ⊢

/-- The unit's state is the packet buffer and the cache (R6). -/
theorem State.unit_eq_iff {s u : State} : u.unit = s.unit ↔ u.pkt = s.pkt ∧ u.cache = s.cache :=
  iff_of_eq (UnitState.mk.injEq _ _ _ _)

/-! A step by the verdict on its word (R64, R183, R184) -/

section Step

variable {s : State} {w : Word} {rest : List Word}

/-- The unit only answers a word that is no command, with `ERR_OPCODE` (R183). -/
theorem unitStep_of_noCommand {c : Configuration} {u : UnitState c} (hd : decodeFor c w = .noCommand) :
    unitStep c u w = u.raise .errOpcode 0#8 0#16 0#32 := by
  rw [unitStep, hd]

/-- The unit only answers an ill-formed word, with `ERR_OPERAND` (R184). -/
theorem unitStep_of_illFormed {c : Configuration} {u : UnitState c} (hd : decodeFor c w = .illFormed) :
    unitStep c u w = u.raise .errOperand 0#8 0#16 0#32 := by
  rw [unitStep, hd]

/-- Whatever the word, a step takes it from the port and is the unit's step on it, with one response recorded (R5, R6, R180). -/
theorem step_eq_performs (h : s.pending = w :: rest) :
    step s = .next (State.performs { s with pending := rest } (fun u => unitStep Config.record u w)) :=
  (step_eq_runWord h).trans (runWord_eq_performs w _)

/-- What a step leaves and answers is what the unit's step on the presented word leaves and answers. -/
theorem unitStep_of_step {u : State} {r : Response} (h : s.pending = w :: rest) (hstep : step s = .next u)
    (hr : u.responses = s.responses ++ [r]) : unitStep Config.record s.unit w = (u.unit, r) := by
  obtain rfl := Host.Outcome.next.inj ((step_eq_performs h).symm.trans hstep)
  obtain rfl : (unitStep Config.record s.unit w).2 = r := List.singleton_inj.1 (List.append_cancel_left hr)
  rfl

/-- A word that is no command is only answered, with `ERR_OPCODE` (R183). -/
theorem step_of_noCommand (h : s.pending = w :: rest) (hd : decode w = .noCommand) :
    step s = .next (State.answer { s with pending := rest } ⟨.errOpcode, 0#8, 0#16, 0#32⟩) := by
  rw [step_eq_runWord h, runWord, hd]

/-- A word that is a command's is run as that command (R6). -/
theorem step_of_command {i : Instr} (h : s.pending = w :: rest) (hd : decode w = .command i) :
    step s = exec i { s with pending := rest } := by
  rw [step_eq_runWord h, runWord, hd]

/-- Each operand condition of R61 is the one under which its command's words are refused (`runsAs`). -/
theorem step_of_operandsRefused (h : s.pending = w :: rest) (hw : operandsRefused w) :
    step s = .next (State.answer { s with pending := rest } ⟨.errOperand, 0#8, 0#16, 0#32⟩) := by
  rcases hw with ⟨hop, hbad⟩ | ⟨hop, hbad⟩ | ⟨hop, hbad⟩ | ⟨hop, hbad⟩ | ⟨hop, hbad⟩ | ⟨hop, ha | hh | ht⟩ | ⟨hop, hbad⟩
  · have hop' : opField w ∈ [Instr.nop, .chk, .norm, .dec, .disp].map Instr.opcode := hop
    obtain ⟨i, hi, hopi⟩ := List.mem_map.1 hop'
    exact (runsAs_withoutOperands hi s w rest h hopi.symm).1 hbad
  · exact (runsAs_putb s w rest h hop).1 hbad
  · exact (runsAs_getb s w rest h hop).1 hbad
  · exact (runsAs_crc s w rest h hop).1 hbad
  · exact (runsAs_upsert s w rest h hop).1 hbad
  · exact (runsAs_rdslot s w rest h hop).1 (.inl ha)
  · exact (runsAs_rdslot s w rest h hop).1 (.inr (.inr hh))
  · exact (runsAs_rdslot s w rest h hop).1 (.inr (.inl ht))
  · exact (runsAs_rxpkt s w rest h hop).1 hbad

end Step

/-- A word placed as the next to fetch is the first presented (log entry 8). -/
theorem State.withFetchWord_toNat (s : State) (w : Word) : s.withFetchWord 64 w.toNat = s.present w := by
  rw [State.withFetchWord, tableWord, Nat.mod_eq_of_lt w.isLt, BitVec.ofNat_toNat, BitVec.setWidth_eq]

/-! Which commands answer which status (R181) -/

/-- What a command with its operands in range can answer: `OK`, a checksum mismatch of `CHK` or `RXPKT`, or a full cache of `UPSERT`
or `RXPKT` with the fields R135 and R160 leave zero. -/
theorem UnitState.command_status_cases {c : Configuration} (u : UnitState c) {i : Instr} (hi : i.wellFormedFor c = true) :
    (u.command i).2.status = .ok ∨
    ((u.command i).2.status = .crcFail ∧ (i.opcode = 0x11#8 ∨ i.opcode = 0x60#8)) ∨
    (i.opcode = 0x50#8 ∧ (u.command i).2 = ⟨.cacheFull, 0#8, 0#16, 0#32⟩) ∨
    (i.opcode = 0x60#8 ∧ (u.command i).2.status = .cacheFull ∧ (u.command i).2.t = 0#32) := by
  cases i with
  | nop | norm | dec | disp => exact .inl rfl
  | putb | getb | crc | rdslot =>
    exact .inl <| congrArg (fun b => (UnitState.checked u b _).2.status) hi
  | chk =>
    rw [UnitState.command, UnitState.chk_eq]
    cases verify u.pkt.block with
    | true => exact .inl rfl
    | false => exact .inr (.inl ⟨rfl, .inl rfl⟩)
  | upsert oid strength tick =>
    rcases UnitState.upsert_command_cases oid strength tick u with ⟨hbad, _⟩ | ⟨_, _, _, _, he⟩ | ⟨_, _, he⟩
    · cases hi.symm.trans hbad
    · exact .inl (congrArg (·.2.status) he)
    · exact .inr (.inr (.inl ⟨rfl, congrArg Prod.snd he⟩))
  | rxpkt tick =>
    have hrun : u.command (.rxpkt tick) = u.receiveWith c.layout c.cipher tick :=
      UnitState.rxpkt_of_lt ((tickInRange_eq_true c tick).1 hi)
    rw [hrun]
    rcases UnitState.receiveWith_cases c.layout c.cipher tick u with ⟨_, he⟩ | ⟨_, _, _, _, he⟩ | ⟨_, _, he⟩
    all_goals rw [he]
    · exact .inr (.inl ⟨rfl, .inr rfl⟩)
    · exact .inl rfl
    · exact .inr (.inr (.inr ⟨rfl, rfl, rfl⟩))

/-! The statements -/

/-- Settles O47: the response of a step is that of the unit's step on its word, which the verdict on the word decides; a command's
statuses are those of `UnitState.command_status_cases`. -/
theorem statusesComeFromTheirCommands : Obligations.StatusesComeFromTheirCommands := by
  refine ⟨fun s u w rest r hp hstep hr => ?_, rfl, rfl, rfl, rfl, rfl⟩
  have hunit : unitStep Config.record s.unit w = (u.unit, r) := unitStep_of_step hp hstep hr
  cases hd : decode w with
  | noCommand =>
    obtain ⟨hsame, rfl⟩ := Prod.mk.inj (hunit.symm.trans (unitStep_of_noCommand hd))
    simpa using State.unit_eq_iff.1 hsame
  | illFormed =>
    obtain ⟨hsame, rfl⟩ := Prod.mk.inj (hunit.symm.trans (unitStep_of_illFormed hd))
    simpa using State.unit_eq_iff.1 hsame
  | command i =>
    obtain ⟨rfl, hi⟩ := decode_eq_command_iff.1 hd
    obtain rfl : (s.unit.command i).2 = r := congrArg Prod.snd ((unitStep_encode s.unit i).symm.trans hunit)
    rw [opField_encode]
    rcases s.unit.command_status_cases hi with hok | ⟨hfail, hop⟩ | ⟨hop, hfull⟩ | ⟨hop, hfull, ht⟩
    · simp [hok]
    · simp [hfail, hop]
    · simp [hfull, hop]
    · simp [hfull, ht, hop]

/-- Settles O48: a response's word is four fields side by side (`packWord_eq_or`), which it determines (`packWord_inj`), and the
code determines the status. -/
theorem responseWordCarriesTheFields : Obligations.ResponseWordCarriesTheFields := by
  refine ⟨fun r => packWord_eq_or _ _ _ _, fun r r' h => ?_⟩
  obtain ⟨st, a, hf, t⟩ := r
  obtain ⟨st', a', hf', t'⟩ := r'
  obtain ⟨hcode, rfl, rfl, rfl⟩ := packWord_inj.1 h
  obtain rfl : st = st' := Status.code_injective hcode
  rfl

/-- Settles O6: each of the listed conditions is one under which the command's words are refused (`step_of_operandsRefused`). -/
theorem operandErrorAnswersErrOperand : Obligations.OperandErrorAnswersErrOperand :=
  fun _ _ _ hp hw => ⟨_, step_of_operandsRefused hp hw, by decide⟩

/-- Settles O5: the eleven values are the `op` column of the opcode map, outside which nothing is a command
(`decode_eq_noCommand_iff`). -/
theorem reservedOpcodeAnswersErrOpcode : Obligations.ReservedOpcodeAnswersErrOpcode :=
  fun _ w _ hp hop => ⟨_, step_of_noCommand hp ((decode_eq_noCommand_iff w).2 hop), by decide⟩

/-- Settles O45: a step holds the state or is the unit's step on the word taken (`step_eq_performs`), which gives one response. -/
theorem everyCommandIsAnsweredOnce : Obligations.EveryCommandIsAnsweredOnce := by
  refine ⟨fun s => ?_, fun s w rest hp => ⟨_, _, step_eq_performs hp, rfl, rfl⟩⟩
  rcases hp : s.pending with _ | ⟨w, rest⟩
  · exact ⟨s, step_eq_self hp⟩
  · exact ⟨_, step_eq_performs hp⟩

/-- Settles O4: the decoder evaluated on each of the eight words. -/
theorem writtenWordsDecode : Obligations.WrittenWordsDecode := by
  unfold Obligations.WrittenWordsDecode
  decide

/-- Settles O7: the refusal of every command by its own operand check (`exec_of_illFormed`). -/
theorem illFormedCommandIsRefusedByItsMeaning : Obligations.IllFormedCommandIsRefusedByItsMeaning :=
  fun _ s hi => exec_of_illFormed s hi

/-- Settles O8: a word placed as the next to fetch is the first presented, and with it taken the state is the one before. -/
theorem stepRunsTheDecodedCommand : Obligations.StepRunsTheDecodedCommand := by
  refine ⟨fun _ _ _ _ => step_of_command, fun s w i hd => ?_⟩
  rw [State.withFetchWord_toNat]
  exact step_of_command (s.present_pending w) hd

/-- Settles O9: with no word presented there is none to take. -/
theorem unitHoldsItsStateWithoutCommand : Obligations.UnitHoldsItsStateWithoutCommand :=
  fun _ => step_eq_self

end Sys2Proof.Machine

/-! PROOFS. Reset and hazards (70_reset_and_hazards.md): records older and newer than the tick around the wrap of an epoch, a packet
loaded over an old buffer, and runs. -/

namespace Sys2Proof.Machine

section Cache

variable {w n : Nat} {cutoff : BitVec w} {C : Cache w n} {id : Half} {s : Byte} {t : BitVec w}

/-! Records around the first ticks of an epoch (R208, R209) -/

/-- Below the cutoff the threshold is above the tick, so every record not from the future is stale (R208). -/
theorem stale_of_lt_cutoff {r : BeaconRecord w} (ht : t.toNat < cutoff.toNat) (hr : r.lastSeenTick.toNat ≤ t.toNat) :
    stale cutoff r t = true := by
  have hcutoff := cutoff.isLt
  rw [stale_eq_true_iff, threshold_toNat_of_lt ht]
  omega

/-- With every slot stale, a match is overwritten whatever its strength (R208). -/
theorem upsert_of_match_of_allStale (hstale : ∀ j : Fin n, stale cutoff C[j] t = true) {i : Fin n} (hid : C[i].id = id)
    (hlow : ∀ j : Fin n, j < i → C[j].id ≠ id) : upsert cutoff C id s t = (C.set i ⟨id, s, t⟩, .slot i) :=
  upsert_of_match_overwritten hid hlow (.inr (hstale i))

/-- With every slot stale, a new tag lands in slot 0 (R208). -/
theorem upsert_of_new_of_allStale (hstale : ∀ j : Fin n, stale cutoff C[j] t = true) (hno : holdsNot C id) {i : Fin n}
    (hi : i.val = 0) : upsert cutoff C id s t = (C.set i ⟨id, s, t⟩, .slot i) :=
  upsert_of_stale hno (hstale i) fun j hj => by omega

/-- With every slot stale and every slot but slot 0 a reset record, an id other than 0 lands in slot 0, matched there or new (R208). -/
theorem upsert_of_oneTag_of_allStale (hstale : ∀ j : Fin n, stale cutoff C[j] t = true) (hid : id ≠ 0#16)
    (hreset : ∀ j : Fin n, j.val ≠ 0 → C[j] = BeaconRecord.zero w) {i : Fin n} (hi : i.val = 0) :
    upsert cutoff C id s t = (C.set i ⟨id, s, t⟩, .slot i) := by
  by_cases hheld : C[i].id = id
  · exact upsert_of_match_of_allStale hstale hheld fun j hj => by omega
  · refine upsert_of_new_of_allStale hstale (fun j hj => ?_) hi
    by_cases hj0 : j.val = 0
    · obtain rfl : j = i := Fin.ext (hj0.trans hi.symm)
      exact hheld hj
    · rw [hreset j hj0] at hj
      exact hid hj.symm

/-- From the cutoff on a record from the future is fresh (R209). -/
theorem fresh_of_future {r : BeaconRecord w} (ht : cutoff.toNat ≤ t.toNat) (hr : t.toNat < r.lastSeenTick.toNat) :
    stale cutoff r t = false := by
  rw [stale_eq_false_iff, threshold_toNat_of_le ht]
  omega

/-- A fresh slot is kept, or overwritten by its own tag with no greater strength: phase 2 does not take it (R133, R210). -/
theorem upsert_get_of_fresh {i : Fin n} (hi : stale cutoff C[i] t = false) :
    (upsert cutoff C id s t).1[i] = C[i] ∨
    (C[i].id = id ∧ s.toNat ≤ C[i].strength.toNat ∧ (upsert cutoff C id s t).1[i] = ⟨id, s, t⟩) := by
  rcases upsert_cases cutoff C id s t with ⟨k, hid, _, ho, he⟩ | ⟨_, _, _, _, he⟩ | ⟨k, _, hk, _, he⟩ | ⟨_, _, he⟩
  all_goals rw [he]
  · rw [Cache.get_set]
    split
    · next hki =>
      subst hki
      rw [overwrites_eq_true_iff, hi] at ho
      exact .inr ⟨hid, ho.resolve_right Bool.false_ne_true, rfl⟩
    · exact .inl rfl
  · exact .inl rfl
  · have hki : k ≠ i := by
      rintro rfl
      cases hi.symm.trans hk
    exact .inl (by rw [Cache.get_set, if_neg hki])
  · exact .inl rfl

end Cache

/-! A packet loaded over an old buffer (R207) -/

section Packet

variable {A P : Block} {tick : Word32}

/-- The sixteen bytes and the cache decide all that `RXPKT` leaves in the cache and answers (R160). -/
theorem exec_rxpkt_by_block (hP : plaintextOf Config.cipher A = P) (C : Cache Config.tickW Config.capacity) :
    ∃ C' r, ∀ v : State, v.pkt.block = A → v.cache = C →
      exec (.rxpkt tick) v = .next (((v.withPkt (v.pkt.writeBlock P)).withCache C').answer r) := by
  cases hv : verify P with
  | false =>
    refine ⟨C, ⟨.crcFail, 0#8, computedChecksum P, (carriedChecksum P).setWidth 32⟩, ?_⟩
    rintro v rfl rfl
    exact exec_rxpkt_of_not_verify hP hv
  | true =>
    rcases hup : upsert cutoffTick C (dispatch Config.layout P).oid (dispatch Config.layout P).trackerStrength tick with
      ⟨C', i | _⟩
    · refine ⟨C', ⟨.ok, (dispatch Config.layout P).trackerStrength, (dispatch Config.layout P).oid, slotWord i⟩, ?_⟩
      rintro v rfl rfl
      exact exec_rxpkt_of_slot hP hv hup
    · refine ⟨C, ⟨.cacheFull, (dispatch Config.layout P).trackerStrength, (dispatch Config.layout P).oid, 0#32⟩, ?_⟩
      rintro v rfl rfl
      exact exec_rxpkt_of_cacheFull hP hv hup

/-- What the host issues for one packet is `RXPKT` with the packet in the buffer, after sixteen answers `OK` (R192). -/
theorem execAll_hostPacket (s : State) (B : Block) : execAll (hostPacket B tick) s = exec (.rxpkt tick)
    { s with pkt := s.pkt.writeBlock B, responses := s.responses ++ List.replicate 16 ⟨.ok, 0#8, 0#16, 0#32⟩ } := by
  rw [hostPacket, execAll_append (execAll_ldpkt s B), execAll_cons (exec_eq_performs _ _), exec_eq_performs, execAll]

end Packet

/-! Runs (R214) -/

/-- The first step of a run that goes on. -/
theorem run_succ_of_next {M : Host.Core} {s u : M.State} (h : M.step s = .next u) (k : Nat) : M.run (k + 1) s = M.run k u := by
  rw [Host.Core.run, h]

/-- A run of as many steps as words are presented takes them all and answers each. -/
theorem core_run_pending (s : State) (ws : List Word) (h : s.pending = ws) : ∃ (u : State) (rs : List Response),
    Host.Core.run core ws.length s = .next u ∧ u.pending = [] ∧ u.responses = s.responses ++ rs ∧ rs.length = ws.length := by
  induction ws generalizing s with
  | nil => exact ⟨s, [], rfl, h, (List.append_nil _).symm, rfl⟩
  | cons w ws ih =>
    obtain ⟨_, hanswered⟩ := everyCommandIsAnsweredOnce
    obtain ⟨v, r, hstep, hpending, hresponses⟩ := hanswered s w ws h
    obtain ⟨u, rs, hrun, hnone, hrest, hlen⟩ := ih v hpending
    refine ⟨u, r :: rs, (run_succ_of_next hstep _).trans hrun, hnone, ?_, congrArg (· + 1) hlen⟩
    rw [hrest, hresponses, List.append_assoc, List.singleton_append]

/-! The statements -/

/-- Settles O37: every record is stale (`stale_of_lt_cutoff`), so a match is overwritten and with none slot 0 is taken; where the
other slots are reset records, an id other than 0 is matched in slot 0 or nowhere. -/
theorem firstTicksOfAnEpochKeepOneTag : Obligations.FirstTicksOfAnEpochKeepOneTag := by
  intro w n cutoff C id s t hn ht hpast
  have hstale (i : Fin n) : stale cutoff C[i] t = true := stale_of_lt_cutoff ht (hpast i)
  refine ⟨fun i => upsert_of_match_of_allStale hstale, fun i hi hno => upsert_of_new_of_allStale hstale hno hi, fun hfull => ?_,
    fun hid hreset => ⟨fun i hi => ?_, fun j hj => ?_⟩⟩
  · obtain ⟨_, hno⟩ := upsert_cacheFull hfull
    rw [upsert_of_new_of_allStale hstale hno (i := ⟨0, hn⟩) rfl] at hfull
    cases hfull
  · rw [upsert_of_oneTag_of_allStale hstale hid hreset hi, Cache.get_set, if_pos rfl]
    exact ⟨rfl, rfl⟩
  · have hne : (⟨0, hn⟩ : Fin n) ≠ j := fun h => hj (congrArg Fin.val h).symm
    rw [upsert_of_oneTag_of_allStale hstale hid hreset (i := ⟨0, hn⟩) rfl, Cache.get_set, if_neg hne, hreset j hj]

/-- Settles O38: a record from the future is fresh (`fresh_of_future`), so it is kept but for its own tag at no greater strength
(`upsert_get_of_fresh`), and with every slot such a new tag finds none. -/
theorem recordsFromTheFutureArePinned : Obligations.RecordsFromTheFutureArePinned := by
  intro w n cutoff C i id s t ht hi
  have hslot := upsert_get_of_fresh (id := id) (s := s) (fresh_of_future ht hi)
  refine ⟨fun hid => ?_, ?_, fun hall hno => ?_⟩
  · exact hslot.resolve_right fun ⟨heq, _⟩ => hid heq
  · refine hslot.imp_right fun ⟨_, hle, he⟩ => ?_
    rwa [he]
  · rw [upsert_of_full hno fun j => fresh_of_future ht (hall j)]

/-- Settles O43: after the load both buffers hold `B`, and block and cache decide the rest (`exec_rxpkt_by_block`). -/
theorem loadedPacketIgnoresTheOldBuffer : Obligations.LoadedPacketIgnoresTheOldBuffer := by
  intro s m B tick
  obtain ⟨C, r, hrun⟩ := exec_rxpkt_by_block (tick := tick) (A := B) rfl s.cache
  have hload := (execAll_hostPacket s B).trans (hrun _ (Memory.block_writeBlock _ _) rfl)
  have hload' := (execAll_hostPacket (s.withPkt m) B).trans (hrun _ (Memory.block_writeBlock _ _) rfl)
  refine ⟨_, _, hload, hload', ?_, ?_, ?_, ?_⟩
  all_goals simp

/-- Settles O46: by induction over the presented words, each step taking the first (`core_run_pending`). -/
theorem runAnswersEveryWord : Obligations.RunAnswersEveryWord :=
  fun s => core_run_pending s s.pending rfl

end Sys2Proof.Machine
